-- ==== Sys2Proof/Word.lean ====
section
/-! DEFINITION. The word types of the LS-8 engine: every register, memory cell, operand byte and the
flags register is one unsigned byte (spec 00_scope.md section 6 and R7); the program counter is an
unsigned 9-bit quantity (R7, R26). -/

namespace Sys2Proof

/-- A byte: an unsigned integer 0 to 255 (R7 CELL_BITS and REG_BITS, R20, R50). -/
abbrev Byte := BitVec 8

/-- The program counter's 9 bits (R7 PC_BITS, R26); the values a run can reach are 0 to 256. -/
abbrev Pc := BitVec 9

end Sys2Proof
end

