-- ==== Sys2Proof/Syntax.lean ====
section
/-! DEFINITION. The instructions: one constructor per row of spec/opcode_table.json (R86), in the
table's order. Operands are whole bytes exactly as fetched (R83): a register operand above 7 is a legal
encoding that stops the instruction only when its register is accessed (R95, R203), so it is part of the
syntax. -/

namespace Sys2Proof

/-- The 20 instructions of R86. `a` is operand a (the byte at pc + 1), `b` operand b (the byte at
pc + 2) (R82, R84). -/
inductive Instr where
  /-- LDI, Load-Immediate (R130): `a` a register index, `b` the immediate. -/
  | ldi (a b : Byte)
  /-- PRN, Print-Register (R131). -/
  | prn (a : Byte)
  /-- HLT, Halt (R132). -/
  | hlt
  /-- PUSH (R141). -/
  | push (a : Byte)
  /-- POP (R143). -/
  | pop (a : Byte)
  /-- CALL (R151): `a` names the register that holds the target. -/
  | call (a : Byte)
  /-- RET, Return (R153). -/
  | ret
  /-- ADD (R161). -/
  | add (a b : Byte)
  /-- MUL (R162). -/
  | mul (a b : Byte)
  /-- AND (R163). -/
  | and (a b : Byte)
  /-- OR (R164). -/
  | or (a b : Byte)
  /-- XOR (R165). -/
  | xor (a b : Byte)
  /-- NOT (R166). -/
  | not (a : Byte)
  /-- SHL, shift left (R167). -/
  | shl (a b : Byte)
  /-- SHR, shift right (R168). -/
  | shr (a b : Byte)
  /-- MOD, modulo (R169). -/
  | mod (a b : Byte)
  /-- CMP, compare (R170). -/
  | cmp (a b : Byte)
  /-- JMP, Jump (R191). -/
  | jmp (a : Byte)
  /-- JEQ, Jump-If-Equal (R192). -/
  | jeq (a : Byte)
  /-- JNE, Jump-If-Not-Equal (R193). -/
  | jne (a : Byte)
  deriving DecidableEq, Repr

end Sys2Proof
end

