-- ==== Sys2Proof/Decode.lean ====
section
/-! DEFINITION. The decoder, total on any bytes, and after it the encoder (spec 30_encoding.md). -/

namespace Sys2Proof

/-- NN, bits 7:6 of the opcode byte: the operand count n (R80, R81, R112). -/
def operandCount (ir : Byte) : Nat := (ir.extractLsb' 6 2).toNat

/-- A, bit 5: the ALU-operation marker, informational (R81). No rule of the engine reads it apart from
the whole-byte key (R85). -/
def aluBit (ir : Byte) : Bool := ir.getLsbD 5

/-- C, bit 4: "instruction sets PC directly" (R81, R112). -/
def setsPc (ir : Byte) : Bool := ir.getLsbD 4

/-- IIII, bits 3:0: the instruction identifier (R81, R89). -/
def identifier (ir : Byte) : BitVec 4 := ir.extractLsb' 0 4

/-- The static dispatch table, keyed by the whole opcode byte (R85, R86, R87): the instruction, given
the operand bytes that were read. A byte that is not one of the 20 keys has none (R91). -/
def lookup (ir a b : Byte) : Option Instr :=
  match ir with
  | 0x82#8 => some (.ldi a b)
  | 0x47#8 => some (.prn a)
  | 0x01#8 => some .hlt
  | 0x45#8 => some (.push a)
  | 0x46#8 => some (.pop a)
  | 0x50#8 => some (.call a)
  | 0x11#8 => some .ret
  | 0xA0#8 => some (.add a b)
  | 0xA2#8 => some (.mul a b)
  | 0xA8#8 => some (.and a b)
  | 0xAA#8 => some (.or a b)
  | 0xAB#8 => some (.xor a b)
  | 0x69#8 => some (.not a)
  | 0xAC#8 => some (.shl a b)
  | 0xAD#8 => some (.shr a b)
  | 0xA4#8 => some (.mod a b)
  | 0xA7#8 => some (.cmp a b)
  | 0x54#8 => some (.jmp a)
  | 0x55#8 => some (.jeq a)
  | 0x56#8 => some (.jne a)
  | _ => none

/-- Is this byte one of the 20 keys (R86, R91)? The operands play no part in the selection (R114). -/
def listedOpcode (ir : Byte) : Bool := (lookup ir 0 0).isSome

/-- Why a byte sequence is no instruction, by name. -/
inductive DecodeReject where
  /-- There is no opcode byte. -/
  | noOpcode
  /-- Bits 7:6 are 11: rejected before any operand is read (R92). -/
  | countThree (ir : Byte)
  /-- Fewer operand bytes follow than bits 7:6 ask for. -/
  | missingOperand (ir : Byte)
  /-- The opcode byte is not in the dispatch table (R91). -/
  | unlisted (ir : Byte)
  deriving DecidableEq, Repr

/-- The first `n` operand bytes, a then b, and the bytes after them (R82, R113). An operand that the
count does not ask for is given as 0, and no instruction of that count holds it. -/
def takeOperands : Nat → List Byte → Option (Byte × Byte × List Byte)
  | 0, rest => some (0, 0, rest)
  | 1, a :: rest => some (a, 0, rest)
  | 2, a :: b :: rest => some (a, b, rest)
  | _, _ => none

/-- Read one instruction from the front of a byte sequence, in ascending address order (R55, R82), with
the checks in the cycle's order (R110 steps 2 to 5): count, operands, table. -/
def decode : List Byte → Except DecodeReject (Instr × List Byte)
  | [] => .error .noOpcode
  | ir :: bytes =>
    if operandCount ir = 3 then .error (.countThree ir)
    else
      match takeOperands (operandCount ir) bytes with
      | none => .error (.missingOperand ir)
      | some (a, b, rest) =>
        match lookup ir a b with
        | none => .error (.unlisted ir)
        | some i => .ok (i, rest)

/-- The three bytes, first the one at the lowest address, of a table word: bit 0 of `w` is bit 0 of the
opcode byte, and every bit from `nbits` on is 0. -/
def tableBytes (nbits w : Nat) : List Byte :=
  let v := w % 2 ^ nbits
  [BitVec.ofNat 8 v, BitVec.ofNat 8 (v / 2 ^ 8), BitVec.ofNat 8 (v / 2 ^ 16)]

/-- The instruction the decoder reads from a table word. -/
def decodeTableWord (nbits w : Nat) : Option Instr :=
  match decode (tableBytes nbits w) with
  | .ok (i, _) => some i
  | .error _ => none

/-! ## The encoder -/

/-- The opcode byte, written in binary as the source lists it (R86). -/
def Instr.opcode : Instr → Byte
  | .ldi _ _ => 0b10000010#8
  | .prn _ => 0b01000111#8
  | .hlt => 0b00000001#8
  | .push _ => 0b01000101#8
  | .pop _ => 0b01000110#8
  | .call _ => 0b01010000#8
  | .ret => 0b00010001#8
  | .add _ _ => 0b10100000#8
  | .mul _ _ => 0b10100010#8
  | .and _ _ => 0b10101000#8
  | .or _ _ => 0b10101010#8
  | .xor _ _ => 0b10101011#8
  | .not _ => 0b01101001#8
  | .shl _ _ => 0b10101100#8
  | .shr _ _ => 0b10101101#8
  | .mod _ _ => 0b10100100#8
  | .cmp _ _ => 0b10100111#8
  | .jmp _ => 0b01010100#8
  | .jeq _ => 0b01010101#8
  | .jne _ => 0b01010110#8

/-- The operand bytes by ascending address (R82, R84). -/
def Instr.operands : Instr → List Byte
  | .ldi a b => [a, b]
  | .prn a => [a]
  | .hlt => []
  | .push a => [a]
  | .pop a => [a]
  | .call a => [a]
  | .ret => []
  | .add a b => [a, b]
  | .mul a b => [a, b]
  | .and a b => [a, b]
  | .or a b => [a, b]
  | .xor a b => [a, b]
  | .not a => [a]
  | .shl a b => [a, b]
  | .shr a b => [a, b]
  | .mod a b => [a, b]
  | .cmp a b => [a, b]
  | .jmp a => [a]
  | .jeq a => [a]
  | .jne a => [a]

/-- The bytes of an instruction: the opcode at the lowest address, then operand a, then operand b
(R55, R82). -/
def encode (i : Instr) : List Byte := i.opcode :: i.operands

end Sys2Proof
end

