-- ==== Sys2Proof/Config.lean ====
section
/-! DEFINITION. The implementation parameters of the hardware (spec 00_scope.md R7). Every one has a
value in the spec and none is left open, so this file holds no free value. -/

namespace Sys2Proof.Config

/-- MEM_CELLS: 256 cells, addresses 0 to 255 (R7, R50). -/
abbrev memCells : Nat := 256

/-- NREGS: registers R0 to R7 (R7, R20). -/
abbrev numRegs : Nat := 8

/-- MEM_CELLS' reset contents: every cell is 0 (R37, R40). This is what an address that memory does
not list reads as. -/
abbrev memReset : Byte := 0x00#8

/-- Reset value of R0 to R6 (R21, R40). -/
abbrev regReset : Byte := 0x00#8

/-- SP_RESET: reset value of R7, the stack pointer (R7, R21, R40). -/
abbrev spReset : Byte := 0xF4#8

/-- PC_RESET: the entry point (R7, R40, R241). -/
abbrev pcReset : Pc := 0#9

/-- FL_RESET (R7, R32, R40; the spec's decision D10). -/
abbrev flReset : Byte := 0x00#8

end Sys2Proof.Config
end

