-- ==== Sys2Proof/Machine/State.lean ====
section
/-! DEFINITION. The engine's state as plain data (spec 10_state.md, the tuple at its head and the reset
table R40), the causes an error records, and the reasons a step can stop. -/

namespace Sys2Proof.Machine

/-- The cause an error records (R201, R202). A value of this type in `State.fault` is the engine's own
record; it is not an outcome of the model's step. -/
inductive FaultCause where
  /-- `DecodeError(opcode, pc)`: the byte fetched at `pc` is not in the dispatch table (R201). -/
  | decodeError (opcode : Byte) (pc : Pc)
  /-- `ExecutionError(REG_INDEX, i)`: register operand `i` above 7 was accessed (R203). -/
  | regIndex (i : Byte)
  /-- `ExecutionError(MEM_ADDR, address)`: `address` is outside 0 to 255 (R204). -/
  | memAddr (address : Int)
  /-- `ExecutionError(DIV_ZERO, (a, b))`: MOD with a zero divisor; the two operand bytes (R205). -/
  | divZero (a b : Byte)
  deriving DecidableEq, Repr

/-- The register file: eight bytes (R20). `r7` is the stack pointer, which is no separate storage
(R23). -/
structure Regs where
  r0 : Byte
  r1 : Byte
  r2 : Byte
  r3 : Byte
  r4 : Byte
  r5 : Byte
  r6 : Byte
  r7 : Byte
  deriving DecidableEq, Repr

/-- Memory as (address, byte) pairs in one canonical form, `Memory.wf` of Machine/Ops.lean: addresses
strictly rising and below 256, and no entry equal to `Config.memReset`, what an unlisted address reads
as (R37, R50). -/
abbrev Memory := List Host.Cell

/-- The whole state of the engine (10_state.md). -/
structure State where
  /-- The 256 x 8 memory array (R37, R50). -/
  mem : Memory
  /-- R0 to R7 (R20). -/
  x : Regs
  /-- The program counter (R26). -/
  pc : Pc
  /-- The flags register: bit 0 E, bit 1 G, bit 2 L, bits 7:3 undefined and held 0 (R30, R32). -/
  fl : Byte
  /-- The running flag (R33). -/
  running : Bool
  /-- The fault record (R34). -/
  fault : Option FaultCause
  /-- The bytes PRN has emitted, oldest first (R36). -/
  out : List Byte
  deriving DecidableEq, Repr

/-- The three statuses of the engine (R35). -/
inductive Status where
  | running
  | halted
  | faulted
  deriving DecidableEq, Repr

/-- Why the model's step has no next state. An error of the ENGINE is not among these: it is a next
state whose status is FAULTED (R210). -/
inductive Fault where
  /-- Raised by `step` alone, in a HALTED state: "HALTED and FAULTED are both terminal: the engine takes
  no step in either" (R35). SAFE: the hardware does not go on either. -/
  | halted
  /-- Raised by `step` alone, in a state with a fault record (R35, R212). SAFE: the hardware does not go
  on either. -/
  | faulted (cause : FaultCause)
  deriving DecidableEq, Repr

/-- Why the model has no meaning for an instruction. -/
inductive Refusal where
  /-- Raised by an arm of `exec` whose instruction has no meaning yet; no arm is left so. SAFE: the
  model stops where the hardware goes on. -/
  | notModelled (mnemonic : String)
  deriving DecidableEq, Repr

/-- The registers after reset (R21, R40). -/
def Regs.reset : Regs where
  r0 := Config.regReset
  r1 := Config.regReset
  r2 := Config.regReset
  r3 := Config.regReset
  r4 := Config.regReset
  r5 := Config.regReset
  r6 := Config.regReset
  r7 := Config.spReset

/-- The state after reset, before the host loads the program (R40, R240). -/
def State.reset : State where
  mem := []
  x := Regs.reset
  pc := Config.pcReset
  fl := Config.flReset
  running := true
  fault := none
  out := []

end Sys2Proof.Machine
end

