-- ==== Sys2Proof/Machine/Ops.lean ====
section
/-! DEFINITION. The named operations over registers and memory, the status, error entry (the one
exception mechanism of this machine, R210), and what the cycle does around a handler (R110 steps 6 and
7). -/

namespace Sys2Proof.Machine

/-- The outcome of an instruction or of a step. -/
abbrev Result := Host.Outcome State Fault Refusal

/-! ## Registers -/

/-- `x[i]` (R20). No register is hard-wired. -/
def Regs.get (x : Regs) (i : Fin 8) : Byte :=
  match i with
  | 0 => x.r0
  | 1 => x.r1
  | 2 => x.r2
  | 3 => x.r3
  | 4 => x.r4
  | 5 => x.r5
  | 6 => x.r6
  | 7 => x.r7

/-- `x[i] <- v` (R20). -/
def Regs.set (x : Regs) (i : Fin 8) (v : Byte) : Regs :=
  match i with
  | 0 => { x with r0 := v }
  | 1 => { x with r1 := v }
  | 2 => { x with r2 := v }
  | 3 => { x with r3 := v }
  | 4 => { x with r4 := v }
  | 5 => { x with r5 := v }
  | 6 => { x with r6 := v }
  | 7 => { x with r7 := v }

/-- Read register `i`. -/
def State.reg (s : State) (i : Fin 8) : Byte := s.x.get i

/-- Write register `i`. -/
def State.setReg (s : State) (i : Fin 8) (v : Byte) : State := { s with x := s.x.set i v }

/-- SP is register 7 itself (R23). -/
def State.sp (s : State) : Byte := s.reg 7

/-- A write of SP is a write of register 7 (R23). -/
def State.setSp (s : State) (v : Byte) : State := s.setReg 7 v

/-- Write the program counter. -/
def State.setPc (s : State) (p : Pc) : State := { s with pc := p }

/-! ## Memory -/

/-- The byte at an address; an address that is not listed reads as its reset value 0 (R37). -/
def Memory.read : Memory → Nat → Byte
  | [], _ => Config.memReset
  | (k, u) :: m, a => if k = a then u else Memory.read m a

/-- Store a byte, keeping the canonical form: storing what an unlisted address reads as removes the
entry. -/
def Memory.write : Memory → Nat → Byte → Memory
  | [], a, v => if v = Config.memReset then [] else [(a, v)]
  | (k, u) :: m, a, v =>
    if a < k then
      if v = Config.memReset then (k, u) :: m else (a, v) :: (k, u) :: m
    else if a = k then
      if v = Config.memReset then m else (a, v) :: m
    else (k, u) :: Memory.write m a v

/-- Addresses from `lo` on, strictly rising and below 256, and no entry equal to the unlisted value. -/
def Memory.wfFrom (lo : Nat) : Memory → Bool
  | [] => true
  | (k, v) :: m =>
    decide (lo ≤ k) && decide (k < Config.memCells) && decide (v ≠ Config.memReset)
      && Memory.wfFrom (k + 1) m

/-- The canonical form of memory. -/
def Memory.wf (m : Memory) : Bool := Memory.wfFrom 0 m

/-- `MemRead(a, 1)` for an integer address: outside 0 to 255 it raises MEM_ADDR; nothing wraps
(R51, R52). -/
def memRead (s : State) (a : Int) : Except FaultCause Byte :=
  if a < 0 ∨ 255 < a then .error (.memAddr a) else .ok (s.mem.read a.toNat)

/-- `MemWrite(a, 1, v)` for an integer address: outside 0 to 255 it raises MEM_ADDR; otherwise that
cell changes and no other (R51, R53). -/
def memWrite (s : State) (a : Int) (v : Byte) : Except FaultCause State :=
  if a < 0 ∨ 255 < a then .error (.memAddr a)
  else .ok { s with mem := s.mem.write a.toNat v }

/-! ## Status and errors -/

/-- The engine's status (R35). `running = true` with a fault recorded is unreachable (R35); a recorded
fault decides there (DESIGN CHOICE, log entry 3). -/
def State.status (s : State) : Status :=
  match s.fault with
  | some _ => .faulted
  | none => if s.running then .running else .halted

/-- A final state (R118): nothing runs after it. -/
def State.isFinal (s : State) : Bool := !s.running

/-- TAKING AN ERROR, the machine's one exception entry (R210): the cause is recorded, `running` is
cleared, and nothing else changes; `pc` stays at the failing instruction. There is no vector, no saved
register, no mode and no return (R211, R212): only reset leaves the FAULTED state. -/
def State.raise (s : State) (c : FaultCause) : State :=
  { s with running := false, fault := some c }

/-- Kind code of a recorded cause (R206): 0 none, 2 Decode/dispatch error, 3 Execution error. -/
def kindCode : Option FaultCause → Nat
  | none => 0
  | some (.decodeError _ _) => 2
  | some (.regIndex _) => 3
  | some (.memAddr _) => 3
  | some (.divZero _ _) => 3

/-- Kind code 1, Load error: the host loader's only, never the engine's (R200, R206). -/
def loadErrorKindCode : Nat := 1

/-- Sub-code of a recorded cause (R206): 1 REG_INDEX, 2 MEM_ADDR, 3 DIV_ZERO, else 0. -/
def subCode : Option FaultCause → Nat
  | none => 0
  | some (.decodeError _ _) => 0
  | some (.regIndex _) => 1
  | some (.memAddr _) => 2
  | some (.divZero _ _) => 3

/-! ## The cycle around a handler -/

/-- `pc <- pc + n + 1` for an instruction with `n` operands (R28, R110 step 7, R116). -/
def State.advance (s : State) (n : Nat) : State := s.setPc (s.pc + BitVec.ofNat 9 (n + 1))

/-- Steps 6 and 7 of the cycle (R110) for the opcode byte `ir`, whose handler answered `h`: an error is
taken in the state before the handler, so the instruction changes nothing else (R210); otherwise `pc`
advances past the instruction when bit 4 of the opcode is 0, and is left to the handler when it is 1
(R116). -/
def runHandler (ir : Byte) (s : State) (h : Except FaultCause State) : Result :=
  match h with
  | .error c => .next (s.raise c)
  | .ok t => .next (if setsPc ir then t else t.advance (operandCount ir))

end Sys2Proof.Machine
end

