-- ==== Sys2Proof/Machine/Flags.lean ====
section
/-! DEFINITION. The flags register `fl` (R30): E is bit 0, G bit 1, L bit 2. Only CMP writes it, by OR
(R31); only JEQ and JNE read it, bit 0 (R176). No other instruction computes a flag (R171). -/

namespace Sys2Proof.Machine

/-- E, "equal" (R30). -/
def maskE : Byte := 0x01#8

/-- G, "greater-than" (R30). -/
def maskG : Byte := 0x02#8

/-- L, "less-than" (R30). -/
def maskL : Byte := 0x04#8

/-- The one bit a compare of two unsigned bytes ORs in (R170). -/
def compareMask (p q : Byte) : Byte :=
  if p.toNat = q.toNat then maskE
  else if q.toNat < p.toNat then maskG
  else maskL

/-- `fl <- fl | m`: bits set by earlier compares stay (R31, R170). -/
def State.orFlags (s : State) (m : Byte) : State := { s with fl := s.fl ||| m }

/-- `fl[0] = 1`, the only condition available to a jump (R176, R190, R194). -/
def State.flagE (s : State) : Bool := s.fl.getLsbD 0

end Sys2Proof.Machine
end

