-- ==== Sys2Proof/Machine/Operands.lean ====
section
/-! DEFINITION. The operand forms: a register operand (R83, R203), and the stack's one data addressing
mode with its pointer update (R140). LDI's immediate is its operand byte as it stands (R83) and needs no
operation. -/

namespace Sys2Proof.Machine

/-- `checkreg(i)`: the whole operand byte is the register index, not masked; above 7 it raises
REG_INDEX (R83, R203). -/
def checkReg (i : Byte) : Except FaultCause (Fin 8) :=
  if h : i.toNat < 8 then .ok ⟨i.toNat, h⟩ else .error (.regIndex i)

/-- The operand byte that names register `i` (R100: `Ra` assembles to the byte 0 to 7). -/
def regByte (i : Fin 8) : Byte := BitVec.ofNat 8 i.val

/-- The address a push writes, `x[7] - 1`, an integer -1 to 254 (R140, R141, R151). -/
def pushAddr (s : State) : Int := (s.sp.toNat : Int) - 1

/-- The address a pop reads, `x[7]`, an integer 0 to 255 (R140, R143, R153). -/
def popAddr (s : State) : Int := (s.sp.toNat : Int)

/-- The pushing instructions' stack check: the new stack pointer, or MEM_ADDR -1 where it would leave
the address space (R141, R151). -/
def checkPush (s : State) : Except FaultCause Int :=
  if pushAddr s < 0 then .error (.memAddr (-1)) else .ok (pushAddr s)

/-- The check of an address that is about to be stored in a byte, a popped stack pointer or a return
address: above 255 it raises MEM_ADDR 256 (R143, R151, R153). -/
def checkByteAddr (t : Int) : Except FaultCause Byte :=
  if 255 < t then .error (.memAddr 256) else .ok (BitVec.ofInt 8 t)

/-- A byte as a program-counter value: every jump, call and return target is a byte (R29, R190). -/
def target (v : Byte) : Pc := v.setWidth 9

end Sys2Proof.Machine
end

