-- ==== Sys2Proof/Machine/Alu.lean ====
section
/-! DEFINITION. The ten ALU instructions (spec 44_alu.md). A result is computed exactly on naturals and
narrowed to 8 bits at the end, that is modulo 256 (R171); no flag but CMP's is written. -/

namespace Sys2Proof.Machine

/-- The value domain of a register: an exact result modulo 256 (R171). -/
def wrap (n : Nat) : Byte := BitVec.ofNat 8 (n % 256)

/-- The sum (R161). -/
def aluAdd (p q : Byte) : Byte := wrap (p.toNat + q.toNat)

/-- The low 8 bits of the product (R162). -/
def aluMul (p q : Byte) : Byte := wrap (p.toNat * q.toNat)

/-- Bitwise AND (R163). -/
def aluAnd (p q : Byte) : Byte := p &&& q

/-- Bitwise OR (R164). -/
def aluOr (p q : Byte) : Byte := p ||| q

/-- Bitwise XOR (R165). -/
def aluXor (p q : Byte) : Byte := p ^^^ q

/-- The complement within 8 bits, `255 - x` (R166). -/
def aluNot (p : Byte) : Byte := wrap (255 - p.toNat)

/-- Shift left by the whole unsigned byte `q`, not reduced: 8 or more gives 0 (R167). -/
def aluShl (p q : Byte) : Byte := wrap (p.toNat * 2 ^ q.toNat)

/-- Logical shift right by the whole unsigned byte `q`: 8 or more gives 0 (R168). -/
def aluShr (p q : Byte) : Byte := wrap (p.toNat / 2 ^ q.toNat)

/-- The unsigned remainder (R169); the divisor has been checked not to be 0. -/
def aluMod (p q : Byte) : Byte := wrap (p.toNat % q.toNat)

/-- The shape of a two-operand ALU instruction that writes a register: operand a is checked first, then
operand b (R174); both sources are read before the destination, operand a's register, is written
(R160, R172). -/
def aluBinary (f : Byte → Byte → Byte) (a b : Byte) (s : State) : Except FaultCause State := do
  let i ← checkReg a
  let j ← checkReg b
  return s.setReg i (f (s.reg i) (s.reg j))

/-- ADD (R161). -/
def execAdd (a b : Byte) (s : State) : Result :=
  runHandler (Instr.add a b).opcode s (aluBinary aluAdd a b s)

/-- MUL (R162). -/
def execMul (a b : Byte) (s : State) : Result :=
  runHandler (Instr.mul a b).opcode s (aluBinary aluMul a b s)

/-- AND (R163). -/
def execAnd (a b : Byte) (s : State) : Result :=
  runHandler (Instr.and a b).opcode s (aluBinary aluAnd a b s)

/-- OR (R164). -/
def execOr (a b : Byte) (s : State) : Result :=
  runHandler (Instr.or a b).opcode s (aluBinary aluOr a b s)

/-- XOR (R165). -/
def execXor (a b : Byte) (s : State) : Result :=
  runHandler (Instr.xor a b).opcode s (aluBinary aluXor a b s)

/-- NOT (R166): one operand. -/
def execNot (a : Byte) (s : State) : Result :=
  runHandler (Instr.not a).opcode s do
    let i ← checkReg a
    return s.setReg i (aluNot (s.reg i))

/-- SHL (R167). -/
def execShl (a b : Byte) (s : State) : Result :=
  runHandler (Instr.shl a b).opcode s (aluBinary aluShl a b s)

/-- SHR (R168). -/
def execShr (a b : Byte) (s : State) : Result :=
  runHandler (Instr.shr a b).opcode s (aluBinary aluShr a b s)

/-- MOD's divisor check, which names the two operand bytes (R169, R205). -/
def checkDivisor (a b : Byte) (divisor : Byte) : Except FaultCause Unit :=
  if divisor = 0x00#8 then .error (.divZero a b) else .ok ()

/-- MOD (R169): both register checks, then the divisor. -/
def execMod (a b : Byte) (s : State) : Result :=
  runHandler (Instr.mod a b).opcode s do
    let i ← checkReg a
    let j ← checkReg b
    checkDivisor a b (s.reg j)
    return s.setReg i (aluMod (s.reg i) (s.reg j))

/-- CMP (R170): registers are unchanged and one flag bit is ORed in. -/
def execCmp (a b : Byte) (s : State) : Result :=
  runHandler (Instr.cmp a b).opcode s do
    let i ← checkReg a
    let j ← checkReg b
    return s.orFlags (compareMask (s.reg i) (s.reg j))

end Sys2Proof.Machine
end

