-- ==== Sys2Proof/Machine/Basic.lean ====
section
/-! DEFINITION. LDI, PRN and HLT (spec 41_basic.md). -/

namespace Sys2Proof.Machine

/-- LDI (R130): `checkreg(a); x[a] <- b`. -/
def execLdi (a b : Byte) (s : State) : Result :=
  runHandler (Instr.ldi a b).opcode s do
    let i ← checkReg a
    return s.setReg i b

/-- Append one byte to the output sequence (R36). -/
def State.emit (s : State) (v : Byte) : State := { s with out := s.out ++ [v] }

/-- PRN (R131): `checkreg(a); out <- out ++ [x[a]]`. -/
def execPrn (a : Byte) (s : State) : Result :=
  runHandler (Instr.prn a).opcode s do
    let i ← checkReg a
    return s.emit (s.reg i)

/-- Clear the running flag (R33). -/
def State.stop (s : State) : State := { s with running := false }

/-- HLT (R132): `running <- false`; the cycle still advances `pc` (R116). -/
def execHlt (s : State) : Result :=
  runHandler Instr.hlt.opcode s (.ok s.stop)

end Sys2Proof.Machine
end

