-- ==== Sys2Proof/Machine/Jumps.lean ====
section
/-! DEFINITION. JMP, JEQ and JNE (spec 45_jumps.md). All three opcodes have bit 4 set: the handler
writes `pc` on every path (R116). -/

namespace Sys2Proof.Machine

/-- `checkreg(a); pc <- x[a]` (R190, R191). -/
def jumpTo (a : Byte) (s : State) : Except FaultCause State := do
  let i ← checkReg a
  return s.setPc (target (s.reg i))

/-- A jump that is not taken: the handler itself moves `pc` past its two bytes, and operand a is not
checked (R192, R193). -/
def fallThrough (s : State) : Except FaultCause State := .ok (s.setPc (s.pc + 2#9))

/-- JMP (R191). -/
def execJmp (a : Byte) (s : State) : Result :=
  runHandler (Instr.jmp a).opcode s (jumpTo a s)

/-- JEQ (R192): taken exactly when E is set. -/
def execJeq (a : Byte) (s : State) : Result :=
  runHandler (Instr.jeq a).opcode s (if s.flagE then jumpTo a s else fallThrough s)

/-- JNE (R193): taken exactly when E is clear. -/
def execJne (a : Byte) (s : State) : Result :=
  runHandler (Instr.jne a).opcode s (if s.flagE then fallThrough s else jumpTo a s)

end Sys2Proof.Machine
end

