-- ==== Sys2Proof/Machine/Stack.lean ====
section
/-! DEFINITION. PUSH and POP (spec 42_stack.md). All checks come before all writes, in the order of the
rules' pseudocode. -/

namespace Sys2Proof.Machine

/-- PUSH (R141). The register is read after SP was decremented, so PUSH R7 stores the decremented
pointer (the spec's decision D20). -/
def execPush (a : Byte) (s : State) : Result :=
  runHandler (Instr.push a).opcode s do
    let i ← checkReg a
    let t ← checkPush s
    let sp' := BitVec.ofInt 8 t
    let v := if i = 7 then sp' else s.reg i
    memWrite (s.setSp sp') t v

/-- POP (R143). POP R7 ends with the popped byte plus 1 in R7 (the spec's decision D20). -/
def execPop (a : Byte) (s : State) : Result :=
  runHandler (Instr.pop a).opcode s do
    let i ← checkReg a
    let v ← memRead s (popAddr s)
    let t ← checkByteAddr (if i = 7 then (v.toNat : Int) + 1 else popAddr s + 1)
    let s' := if i = 7 then s else s.setReg i v
    return s'.setSp t

end Sys2Proof.Machine
end

