-- ==== Sys2Proof/Machine/Subroutine.lean ====
section
/-! DEFINITION. CALL and RET (spec 43_subroutine.md). Both opcodes have bit 4 set, so the handler alone
writes `pc` (R116). -/

namespace Sys2Proof.Machine

/-- CALL's return address `pc + 2` as an integer, `pc` being the CALL's own address (R27, R151). -/
def returnAddr (s : State) : Int := (s.pc.toNat : Int) + 2

/-- CALL (R151). The register is read after SP was decremented, so CALL R7 jumps to the decremented
pointer (the spec's decision D20). -/
def execCall (a : Byte) (s : State) : Result :=
  runHandler (Instr.call a).opcode s do
    let i ← checkReg a
    let t ← checkPush s
    let r ← checkByteAddr (returnAddr s)
    let sp' := BitVec.ofInt 8 t
    let g := if i = 7 then sp' else s.reg i
    let s' ← memWrite (s.setSp sp') t r
    return s'.setPc (target g)

/-- RET (R153). -/
def execRet (s : State) : Result :=
  runHandler Instr.ret.opcode s do
    let v ← memRead s (popAddr s)
    let t ← checkByteAddr (popAddr s + 1)
    return (s.setSp t).setPc (target v)

end Sys2Proof.Machine
end

