-- ==== Sys2Proof/Machine/Dispatch.lean ====
section
/-! DEFINITION. One arm per instruction of R86: its meaning, which is its handler with steps 6 and 7 of
the cycle (R110). -/

namespace Sys2Proof.Machine

def exec (i : Instr) (s : State) : Host.Outcome State Fault Refusal :=
  match i with
  | .ldi a b => Sys2Proof.Machine.execLdi a b s
  | .prn a => Sys2Proof.Machine.execPrn a s
  | .hlt => Sys2Proof.Machine.execHlt s
  | .push a => Sys2Proof.Machine.execPush a s
  | .pop a => Sys2Proof.Machine.execPop a s
  | .call a => Sys2Proof.Machine.execCall a s
  | .ret => Sys2Proof.Machine.execRet s
  | .add a b => Sys2Proof.Machine.execAdd a b s
  | .mul a b => Sys2Proof.Machine.execMul a b s
  | .and a b => Sys2Proof.Machine.execAnd a b s
  | .or a b => Sys2Proof.Machine.execOr a b s
  | .xor a b => Sys2Proof.Machine.execXor a b s
  | .not a => Sys2Proof.Machine.execNot a s
  | .shl a b => Sys2Proof.Machine.execShl a b s
  | .shr a b => Sys2Proof.Machine.execShr a b s
  | .mod a b => Sys2Proof.Machine.execMod a b s
  | .cmp a b => Sys2Proof.Machine.execCmp a b s
  | .jmp a => Sys2Proof.Machine.execJmp a s
  | .jeq a => Sys2Proof.Machine.execJeq a s
  | .jne a => Sys2Proof.Machine.execJne a s

end Sys2Proof.Machine
end

