-- ==== Sys2Proof/Machine/Fetch.lean ====
section
/-! DEFINITION. Steps 1 to 5 of the cycle (R110): fetching the opcode, decoding its fields, reading its
operands and looking it up; and the load interface through which a program comes to stand in memory
(R244). -/

namespace Sys2Proof.Machine

/-- Step 4 of R110: exactly `n` operand bytes, a from `pc + 1` and then b from `pc + 2` (R113). An
operand that is not read is given as 0, and no instruction of that count holds it. -/
def readOperands (s : State) (n : Nat) : Except FaultCause (Byte × Byte) := do
  let a ← if 1 ≤ n then memRead s ((s.pc.toNat : Int) + 1) else .ok 0
  let b ← if n = 2 then memRead s ((s.pc.toNat : Int) + 2) else .ok 0
  return (a, b)

/-- Steps 1 to 5 of R110: fetch (R111), decode (R112), operand read (R113), dispatch (R114). -/
def fetch (s : State) : Except FaultCause Instr := do
  let ir ← memRead s (s.pc.toNat : Int)
  let n := operandCount ir
  if n = 3 then
    .error (.decodeError ir s.pc)
  else
    let (a, b) ← readOperands s n
    match lookup ir a b with
    | none => .error (.decodeError ir s.pc)
    | some i => .ok i

/-- The bytes from `pc` on that an instruction could have, at most three and none beyond address 255. -/
def codeBytes (s : State) : List Byte :=
  (List.range (min 3 (Config.memCells - s.pc.toNat))).map fun k => s.mem.read (s.pc.toNat + k)

/-- Place bytes in memory from address `a` upward; a cell beyond address 255 does not exist and is not
written. -/
def placeBytes (m : Memory) : Nat → List Byte → Memory
  | _, [] => m
  | a, v :: rest => placeBytes (if a < Config.memCells then m.write a v else m) (a + 1) rest

/-- The load interface (R242, R244): the reset state with the image in memory from address 0, the other
cells keeping their reset value 0. An image longer than 256 bytes is refused by the host (a Load error)
and the engine does not start. -/
def loadImage (image : List Byte) : Option State :=
  if Config.memCells < image.length then none
  else some { State.reset with mem := placeBytes State.reset.mem 0 image }

end Sys2Proof.Machine
end

