-- ==== Sys2Proof/Machine/Step.lean ====
section
/-! DEFINITION. One cycle of the engine (R110) and the word a step fetches. -/

namespace Sys2Proof.Machine

/-- One cycle, defined only when the status is RUNNING (R110): an error of steps 1 to 5 is taken as
R210 says; otherwise the selected instruction runs. HALTED and FAULTED are terminal and the engine takes
no step in either (R35): the model stops there by name. -/
def step (s : State) : Host.Outcome State Fault Refusal :=
  match s.fault with
  | some c => .fault (.faulted c)
  | none =>
    if s.running then
      match fetch s with
      | .error c => .next (s.raise c)
      | .ok i => exec i s
    else .fault .halted

/-- `s` with the table word `w` in the cells that the next step fetches from. -/
def State.withFetchWord (s : State) (nbits w : Nat) : State :=
  { s with mem := placeBytes s.mem s.pc.toNat (tableBytes nbits w) }

end Sys2Proof.Machine
end

