-- ==== Sys2Proof/Machine/Run.lean ====
section
/-! DEFINITION. The run (R117): the repetition of the cycle while the engine takes steps. -/

namespace Sys2Proof.Machine

/-- At most `k` cycles, stopping where the engine takes no step: the state reached (R117, R118). A run
need not end, so the count is its bound. -/
def run : Nat → State → State
  | 0, s => s
  | k + 1, s =>
    match step s with
    | .next t => run k t
    | .fault _ => s
    | .refused _ => s

end Sys2Proof.Machine
end

