-- ==== Sys2Proof/WellFormed.lean ====
section
/-! DEFINITION. Well-formed instructions: every register operand names one of R0 to R7 ("register
index, legal 0 to 7, not masked" in spec/opcode_table.json; R83, R254). An instruction that is not
well-formed still decodes (R95) and still runs: its handler takes the REG_INDEX error where it accesses
the register (R203), so nothing in the machine depends on this check. -/

namespace Sys2Proof

/-- Does this operand byte name a register (R83, R203)? -/
def namesReg (a : Byte) : Bool := decide (a.toNat < Config.numRegs)

/-- Every register operand names a register (R84 says which operands are registers). LDI's `b` is an
immediate: any byte. -/
def Instr.wf : Instr → Bool
  | .ldi a _ => namesReg a
  | .prn a => namesReg a
  | .hlt => true
  | .push a => namesReg a
  | .pop a => namesReg a
  | .call a => namesReg a
  | .ret => true
  | .add a b => namesReg a && namesReg b
  | .mul a b => namesReg a && namesReg b
  | .and a b => namesReg a && namesReg b
  | .or a b => namesReg a && namesReg b
  | .xor a b => namesReg a && namesReg b
  | .not a => namesReg a
  | .shl a b => namesReg a && namesReg b
  | .shr a b => namesReg a && namesReg b
  | .mod a b => namesReg a && namesReg b
  | .cmp a b => namesReg a && namesReg b
  | .jmp a => namesReg a
  | .jeq a => namesReg a
  | .jne a => namesReg a

end Sys2Proof
end

