-- ==== Sys2Proof/Safety.lean ====
section
/-! DEFINITION. What a good state is, and the terms the statements use. -/

namespace Sys2Proof.Machine

/-- The range invariant of every state a run reaches: memory is canonical and lies in addresses 0 to 255
(R37), `pc` is 0 to 256 (R26), `fl` is 0 to 7 (R31, R32), and a recorded error has cleared `running`
(R34, R35). -/
abbrev State.Inv (s : State) : Prop :=
  s.mem.wf = true ∧ s.pc.toNat ≤ 256 ∧ s.fl.toNat < 8 ∧ (s.fault = none ∨ s.running = false)

/-- The causes the engine can record (R201 to R205): a listed opcode is never a Decode error, a
REG_INDEX is 8 to 255, an out-of-range address is -1 or 256, and a DIV_ZERO names two registers. -/
def FaultCause.legal : FaultCause → Bool
  | .decodeError op pc => !listedOpcode op && decide (pc.toNat < 256)
  | .regIndex i => decide (8 ≤ i.toNat)
  | .memAddr a => decide (a = -1 ∨ a = 256)
  | .divZero a b => decide (a.toNat < 8) && decide (b.toNat < 8)

/-- The byte of memory at an address. -/
def State.byteAt (s : State) (a : Nat) : Byte := s.mem.read a

/-- The opcode byte at `pc`. -/
def State.opcodeAtPc (s : State) : Byte := s.byteAt s.pc.toNat

/-- The instruction's bytes stand at `pc`, all of them inside memory. -/
def State.holdsAtPc (s : State) (i : Instr) : Prop :=
  s.pc.toNat + (encode i).length ≤ 256 ∧
    ∀ k (h : k < (encode i).length), s.byteAt (s.pc.toNat + k) = (encode i)[k]

/-- Every byte of memory reads the same in both states. -/
def State.sameMemory (s t : State) : Prop := ∀ a : Nat, t.byteAt a = s.byteAt a

/-- Every register but those listed reads the same in both states. -/
def State.sameRegsExcept (s t : State) (changed : List Byte) : Prop :=
  ∀ j : Fin 8, regByte j ∉ changed → t.reg j = s.reg j

/-- `running` and `fault` are unchanged, or the instruction took an error (R210). -/
def State.sameControlOrError (s t : State) : Prop :=
  (t.running = s.running ∧ t.fault = s.fault) ∨ (t.running = false ∧ t.fault.isSome = true)

/-- RUNNING (R35): `running = true` and `fault = none`. -/
abbrev State.isRunning (s : State) : Prop := s.running = true ∧ s.fault = none

/-- The rule of a two-register ALU instruction that writes its first register: its encoding, its register
checks (a first, then b, R174), and its whole effect on every state, the value being `f` of the two old
register values as naturals. -/
abbrev BinaryAluRule (mk : Byte → Byte → Instr) (op : Byte) (f : Nat → Nat → Nat) : Prop :=
  (∀ a b : Byte, encode (mk a b) = [op, a, b]) ∧
  (∀ (a b : Byte) (s : State), 8 ≤ a.toNat → exec (mk a b) s = .next (s.raise (.regIndex a))) ∧
  (∀ (a b : Byte) (s : State), a.toNat < 8 → 8 ≤ b.toNat →
    exec (mk a b) s = .next (s.raise (.regIndex b))) ∧
  (∀ (i j : Fin 8) (s : State), exec (mk (regByte i) (regByte j)) s =
    .next { s with x := s.x.set i (BitVec.ofNat 8 (f (s.reg i).toNat (s.reg j).toNat)),
                   pc := s.pc + 3#9 })

end Sys2Proof.Machine
end

