-- ==== Sys2Proof/Certificates/Slice0/Obligations.lean ====
section
/-! DEFINITION. The statements about the LS-8 engine. Each names the rules of spec/ it formalises. -/

open Sys2Proof Sys2Proof.Machine

/-! ## Reset and load -/

/-- R40: the reset table, every piece of state. (`fl` 0, `fault` none and `out` empty are the spec's own
decisions D10, D5 and D16.) -/
def Obligations.ResetHoldsTheTableValues : Prop :=
  (∀ a : Nat, a < 256 → State.reset.byteAt a = 0x00#8) ∧
  (∀ i : Fin 8, i ≠ 7 → State.reset.reg i = 0x00#8) ∧
  State.reset.reg 7 = 0xF4#8 ∧ State.reset.pc = 0#9 ∧ State.reset.fl = 0x00#8 ∧
  State.reset.running = true ∧ State.reset.fault = none ∧ State.reset.out = []

/-- R244: an image of at most 256 bytes stands in memory from address 0, the cells above it keep 0, and
nothing else of the reset state changes; a longer image is refused and the engine does not start. -/
def Obligations.LoadedImageStandsFromAddressZero : Prop :=
  (∀ image : List Byte, image.length ≤ 256 → ∃ s, loadImage image = some s ∧
    (∀ k (h : k < image.length), s.byteAt k = image[k]) ∧
    (∀ k, image.length ≤ k → k < 256 → s.byteAt k = 0x00#8) ∧
    s = { State.reset with mem := s.mem }) ∧
  (∀ image : List Byte, 256 < image.length → loadImage image = none)

/-! ## Encoding -/

/-- Every instruction, with every operand byte and whatever follows it, decodes to itself (R82, R83). -/
def Obligations.DecodeOfEncodeIsTheInstruction : Prop :=
  ∀ (i : Instr) (rest : List Byte), decode (encode i ++ rest) = .ok (i, rest)

/-- The other direction: bytes that decode are the encoding of the instruction they decode to, so no two
byte sequences share an instruction and no bit is dropped. -/
def Obligations.DecodedBytesAreTheEncoding : Prop :=
  ∀ (bytes rest : List Byte) (i : Instr), decode bytes = .ok (i, rest) → bytes = encode i ++ rest

/-- Words written out from the table of R86 decode to the instructions they stand for: one or more of
each family. -/
def Obligations.WordsOfTheTableDecode : Prop :=
  decode [0b10000010#8, 3, 255] = .ok (.ldi 3 255, []) ∧
  decode [0b01000111#8, 7] = .ok (.prn 7, []) ∧
  decode [0b00000001#8] = .ok (.hlt, []) ∧
  decode [0b01000101#8, 2] = .ok (.push 2, []) ∧
  decode [0b01000110#8, 2] = .ok (.pop 2, []) ∧
  decode [0b01010000#8, 1] = .ok (.call 1, []) ∧
  decode [0b00010001#8] = .ok (.ret, []) ∧
  decode [0b10100000#8, 0, 1] = .ok (.add 0 1, []) ∧
  decode [0b10100100#8, 6, 5] = .ok (.mod 6 5, []) ∧
  decode [0b01101001#8, 4] = .ok (.not 4, []) ∧
  decode [0b10100111#8, 0, 200] = .ok (.cmp 0 200, []) ∧
  decode [0b01010101#8, 255] = .ok (.jeq 255, [])

/-- R81, R88: for every instruction NN is its number of operands, A is 1 exactly for the ten ALU
instructions, C is 1 exactly for the five that set `pc` themselves; and the opcode tells the instruction
but for its operands. -/
def Obligations.OpcodeFieldsFollowTheLayout : Prop :=
  (∀ i : Instr, operandCount i.opcode = i.operands.length) ∧
  (∀ i : Instr, aluBit i.opcode = true ↔
    ∃ a b : Byte, i ∈ [Instr.add a b, .mul a b, .and a b, .or a b, .xor a b, .not a, .shl a b,
      .shr a b, .mod a b, .cmp a b]) ∧
  (∀ i : Instr, setsPc i.opcode = true ↔
    ∃ a : Byte, i ∈ [Instr.call a, .ret, .jmp a, .jeq a, .jne a]) ∧
  (∀ i j : Instr, i.opcode = j.opcode → i.operands = j.operands → i = j)

/-- R93 and Q1: exactly the 20 bytes of R86 are listed, and the 236 others fall into the classes of
R93. -/
def Obligations.TwentyOpcodesAreListed : Prop :=
  let bytes := (List.range 256).map (BitVec.ofNat 8)
  bytes.filter listedOpcode =
    [0x01#8, 0x11#8, 0x45#8, 0x46#8, 0x47#8, 0x50#8, 0x54#8, 0x55#8, 0x56#8, 0x69#8, 0x82#8, 0xA0#8,
     0xA2#8, 0xA4#8, 0xA7#8, 0xA8#8, 0xAA#8, 0xAB#8, 0xAC#8, 0xAD#8] ∧
  ((bytes.filter fun b => !listedOpcode b && operandCount b == 0).length = 62) ∧
  ((bytes.filter fun b => !listedOpcode b && operandCount b == 1).length = 56) ∧
  ((bytes.filter fun b => !listedOpcode b && operandCount b == 2).length = 54) ∧
  ((bytes.filter fun b => !listedOpcode b && operandCount b == 3).length = 64)

/-! ## The cycle -/

/-- A step runs the decoded instruction (R90, R110): where the bytes at `pc` decode to `i`, a step of a
RUNNING engine is `exec` of `i` at that state, with nothing around it: `exec` itself holds steps 6 and 7
of the cycle, the advance of `pc` among them. -/
def Obligations.StepRunsTheDecodedInstruction : Prop :=
  ∀ (s : State) (i : Instr) (rest : List Byte), s.isRunning → decode (codeBytes s) = .ok (i, rest) →
    step s = exec i s

/-- The same from the encoder's side: where an instruction's bytes stand in memory at `pc`, a step of a
RUNNING engine runs it, whatever stands after it. -/
def Obligations.StepRunsTheInstructionAtPc : Prop :=
  ∀ (s : State) (i : Instr), s.isRunning → s.holdsAtPc i → step s = exec i s

/-- R111: with `pc` = 256 the fetch raises MEM_ADDR 256, and `pc` is not changed. -/
def Obligations.FetchPastMemoryRaisesMemAddr : Prop :=
  ∀ s : State, s.isRunning → s.pc = 256#9 →
    ∃ t, step s = .next t ∧ t = s.raise (.memAddr 256) ∧ t.pc = s.pc

/-- R113 with R204 and R207 items 3 and 4: an operand address above 255 raises MEM_ADDR 256, whether the
opcode is listed or not: operand a of an instruction at 255, operand b of one at 254. -/
def Obligations.OperandPastMemoryRaisesMemAddr : Prop :=
  ∀ s : State, s.isRunning →
    (s.pc = 255#9 → (operandCount s.opcodeAtPc = 1 ∨ operandCount s.opcodeAtPc = 2) →
      step s = .next (s.raise (.memAddr 256))) ∧
    (s.pc = 254#9 → operandCount s.opcodeAtPc = 2 → step s = .next (s.raise (.memAddr 256)))

/-- R92: an opcode byte with bits 7:6 = 11 is in no entry of the table and raises a Decode error before
any operand is read, so also at the last addresses. -/
def Obligations.CountThreeRaisesDecodeError : Prop :=
  (∀ (ir a b : Byte), operandCount ir = 3 → lookup ir a b = none) ∧
  (∀ s : State, s.isRunning → s.pc.toNat < 256 → operandCount s.opcodeAtPc = 3 →
    step s = .next (s.raise (.decodeError s.opcodeAtPc s.pc)))

/-- R91: any opcode byte but the 20 raises a Decode error that names the byte and the `pc`, where the
operand bytes its count asks for lie inside memory (elsewhere R207 reports the operand address). -/
def Obligations.UnlistedOpcodeRaisesDecodeError : Prop :=
  ∀ s : State, s.isRunning →
    s.opcodeAtPc ∉ [0x01#8, 0x11#8, 0x45#8, 0x46#8, 0x47#8, 0x50#8, 0x54#8, 0x55#8, 0x56#8, 0x69#8,
      0x82#8, 0xA0#8, 0xA2#8, 0xA4#8, 0xA7#8, 0xA8#8, 0xAA#8, 0xAB#8, 0xAC#8, 0xAD#8] →
    s.pc.toNat < 256 →
    (operandCount s.opcodeAtPc = 3 ∨ s.pc.toNat + operandCount s.opcodeAtPc ≤ 255) →
    step s = .next (s.raise (.decodeError s.opcodeAtPc s.pc))

/-- R260 and R119: a RUNNING engine always takes its next step: it is never stuck, whatever stands in
memory and wherever `pc` points. -/
def Obligations.RunningEngineAlwaysSteps : Prop :=
  ∀ s : State, s.isRunning → ∃ t, step s = .next t

/-- No instruction ends the model's run by a fault or a refusal of the model's own: each has a next
state from every state and for every operand byte. -/
def Obligations.EveryInstructionHasANextState : Prop :=
  ∀ (i : Instr) (s : State), ∃ t, exec i s = .next t

/-- R35: the three statuses as functions of `running` and `fault`; no step is taken in HALTED or FAULTED;
and `running` with a fault recorded is not reached by the run of any loaded image. -/
def Obligations.StatusesAndTheirTerminality : Prop :=
  (∀ s : State, s.running = true → s.fault = none → s.status = .running) ∧
  (∀ s : State, s.running = false → s.fault = none → s.status = .halted) ∧
  (∀ s : State, s.running = false → s.fault ≠ none → s.status = .faulted) ∧
  (∀ s t : State, s.status ≠ .running → step s ≠ .next t) ∧
  (∀ (image : List Byte) (s : State) (k : Nat), loadImage image = some s →
    ¬ ((run k s).running = true ∧ (run k s).fault ≠ none))

/-- R210: precise errors. A step that records a cause changes `running` and `fault` and nothing else: no
register, cell, flag, `pc` or output. -/
def Obligations.ErrorsArePrecise : Prop :=
  ∀ (s t : State) (c : FaultCause), step s = .next t → t.fault = some c →
    t = { s with running := false, fault := some c }

/-- R204 with R201, R203, R205: the causes a step can record from a state in range: a Decode error names
an unlisted byte at an address below 256, a register index is 8 to 255, an out-of-range address is -1 or
256 (257 never occurs), a zero divisor names two registers. -/
def Obligations.RecordedCausesAreTheListedOnes : Prop :=
  ∀ (s t : State) (c : FaultCause), s.Inv → step s = .next t → t.fault = some c → c.legal = true

/-- R116: after an instruction whose opcode has bit 4 = 0 and that raised no error, HLT included, `pc` is
the old one plus the operand count plus 1, as an integer: nothing wraps, and it is at most 256. -/
def Obligations.SequentialAdvanceIsExact : Prop :=
  ∀ s t : State, s.Inv → step s = .next t → t.fault = none → setsPc s.opcodeAtPc = false →
    t.pc.toNat = s.pc.toNat + operandCount s.opcodeAtPc + 1 ∧ t.pc.toNat ≤ 256

/-! ## Invariants and whole-machine rules -/

/-- The state after reset, and every loaded state, is in range. -/
def Obligations.ResetAndLoadedStatesMeetTheInvariant : Prop :=
  State.reset.Inv ∧ ∀ (image : List Byte) (s : State), loadImage image = some s → s.Inv

/-- Q6: every step from a state in range ends in range: memory keeps its canonical form inside 0 to 255,
`pc` stays 0 to 256, `fl` stays 0 to 7, and an error leaves `running` clear. -/
def Obligations.StepKeepsTheInvariant : Prop :=
  ∀ s t : State, s.Inv → step s = .next t → t.Inv

/-- The run of every loaded image stays in range for ever. -/
def Obligations.LoadedRunsStayInRange : Prop :=
  ∀ (image : List Byte) (s : State) (k : Nat), loadImage image = some s → (run k s).Inv

/-- R31: no step clears a flag bit, and only CMP changes `fl`. -/
def Obligations.OnlyCompareSetsFlagsAndNothingClearsThem : Prop :=
  ∀ s t : State, step s = .next t →
    (∀ k : Nat, s.fl.getLsbD k = true → t.fl.getLsbD k = true) ∧
    (t.fl ≠ s.fl → s.opcodeAtPc = 0xA7#8)

/-- R251: once E is set it stays set for the rest of the run. -/
def Obligations.EqualFlagStaysSetForTheRun : Prop :=
  ∀ (s : State) (k : Nat), s.fl.getLsbD 0 = true → (run k s).fl.getLsbD 0 = true

/-- R36: a step appends nothing to the output, or is a PRN and appends one byte, the value of a register;
nothing is ever removed. -/
def Obligations.OnlyPrnEmits : Prop :=
  ∀ s t : State, step s = .next t →
    t.out = s.out ∨ (s.opcodeAtPc = 0x47#8 ∧ ∃ i : Fin 8, t.out = s.out ++ [s.reg i])

/-- R37: only PUSH and CALL write memory, and then at most the one cell below the stack pointer. -/
def Obligations.OnlyPushAndCallWriteMemory : Prop :=
  ∀ s t : State, step s = .next t → t.mem = s.mem ∨
    ((s.opcodeAtPc = 0x45#8 ∨ s.opcodeAtPc = 0x50#8) ∧
      ∀ a : Nat, (a : Int) ≠ pushAddr s → t.byteAt a = s.byteAt a)

/-- R33 and R117: a step leaves `running` clear only by HLT, with no fault recorded, or by an error; so
HALTED is reached only through HLT. -/
def Obligations.RunningIsClearedOnlyByHltOrError : Prop :=
  ∀ s t : State, step s = .next t → t.running = false →
    (s.opcodeAtPc = 0x01#8 ∧ t.fault = none) ∨ t.fault ≠ none

/-- R63: a PUSH that writes the cell the next fetch reads changes what is executed next: the pushed byte
is the next opcode, and where it is a one-byte instruction the next step runs that. -/
def Obligations.PushedByteIsFetchedNext : Prop :=
  ∀ (i : Fin 8) (s t : State) (v : Byte), s.Inv → s.isRunning → s.pc.toNat + 3 = (s.reg 7).toNat →
    v = (if i = 7 then s.reg 7 - 1 else s.reg i) → exec (.push (regByte i)) s = .next t →
    t.opcodeAtPc = v ∧ ∀ j : Instr, operandCount v = 0 → lookup v 0 0 = some j → step t = exec j t

/-! ## LDI, PRN, HLT -/

/-- R130. -/
def Obligations.LdiWritesItsImmediate : Prop :=
  (∀ a b : Byte, encode (.ldi a b) = [0x82#8, a, b]) ∧
  (∀ (a b : Byte) (s : State), 8 ≤ a.toNat → exec (.ldi a b) s = .next (s.raise (.regIndex a))) ∧
  (∀ (i : Fin 8) (b : Byte) (s : State), exec (.ldi (regByte i) b) s =
    .next { s with x := s.x.set i b, pc := s.pc + 3#9 })

/-- R131. -/
def Obligations.PrnEmitsItsRegister : Prop :=
  (∀ a : Byte, encode (.prn a) = [0x47#8, a]) ∧
  (∀ (a : Byte) (s : State), 8 ≤ a.toNat → exec (.prn a) s = .next (s.raise (.regIndex a))) ∧
  (∀ (i : Fin 8) (s : State), exec (.prn (regByte i)) s =
    .next { s with out := s.out ++ [s.reg i], pc := s.pc + 2#9 })

/-- R132: HLT clears `running`, and `pc` still advances; from a RUNNING state the status is then HALTED,
and no later cycle runs. -/
def Obligations.HltClearsRunning : Prop :=
  encode .hlt = [0x01#8] ∧
  (∀ s : State, exec .hlt s = .next { s with running := false, pc := s.pc + 1#9 }) ∧
  (∀ s t : State, s.isRunning → exec .hlt s = .next t →
    t.status = .halted ∧ ∀ u : State, step t ≠ .next u)

/-- The source's testable property of R130 (T1): LDI then PRN of the same register, standing one after
the other in memory, emits exactly the immediate, and the engine is still RUNNING. -/
def Obligations.LdiThenPrnEmitsTheImmediate : Prop :=
  ∀ (i : Fin 8) (v : Byte) (s : State), s.isRunning → s.holdsAtPc (.ldi (regByte i) v) →
    ({ s with pc := s.pc + 3#9 } : State).holdsAtPc (.prn (regByte i)) →
    (run 2 s).out = s.out ++ [v] ∧ (run 2 s).status = .running

/-! ## PUSH, POP -/

/-- R141. -/
def Obligations.PushStoresBelowTheStackPointer : Prop :=
  (∀ a : Byte, encode (.push a) = [0x45#8, a]) ∧
  (∀ (a : Byte) (s : State), 8 ≤ a.toNat → exec (.push a) s = .next (s.raise (.regIndex a))) ∧
  (∀ (i : Fin 8) (s : State), (s.reg 7).toNat = 0 →
    exec (.push (regByte i)) s = .next (s.raise (.memAddr (-1)))) ∧
  (∀ (i : Fin 8) (s : State), 1 ≤ (s.reg 7).toNat → exec (.push (regByte i)) s =
    .next { s with
      x := s.x.set 7 (s.reg 7 - 1)
      mem := s.mem.write ((s.reg 7).toNat - 1) (if i = 7 then s.reg 7 - 1 else s.reg i)
      pc := s.pc + 2#9 })

/-- R143. -/
def Obligations.PopReadsTheTopOfTheStack : Prop :=
  (∀ a : Byte, encode (.pop a) = [0x46#8, a]) ∧
  (∀ (a : Byte) (s : State), 8 ≤ a.toNat → exec (.pop a) s = .next (s.raise (.regIndex a))) ∧
  (∀ (i : Fin 8) (s : State), i ≠ 7 → (s.reg 7).toNat = 255 →
    exec (.pop (regByte i)) s = .next (s.raise (.memAddr 256))) ∧
  (∀ s : State, (s.byteAt (s.reg 7).toNat).toNat = 255 →
    exec (.pop (regByte 7)) s = .next (s.raise (.memAddr 256))) ∧
  (∀ (i : Fin 8) (s : State), i ≠ 7 → (s.reg 7).toNat < 255 → exec (.pop (regByte i)) s =
    .next { s with
      x := (s.x.set i (s.byteAt (s.reg 7).toNat)).set 7 (s.reg 7 + 1)
      pc := s.pc + 2#9 }) ∧
  (∀ s : State, (s.byteAt (s.reg 7).toNat).toNat < 255 → exec (.pop (regByte 7)) s =
    .next { s with x := s.x.set 7 (s.byteAt (s.reg 7).toNat + 1), pc := s.pc + 2#9 })

/-- R142: PUSH then POP of the same register, any of the eight, leaves every register as it was, the
stack pointer among them, and no cell changed but the one below the old top. -/
def Obligations.PushThenPopRestoresTheRegisters : Prop :=
  ∀ (i : Fin 8) (s : State), s.mem.wf = true → 1 ≤ (s.reg 7).toNat →
    ∃ t u, exec (.push (regByte i)) s = .next t ∧ exec (.pop (regByte i)) t = .next u ∧
      (∀ j : Fin 8, u.reg j = s.reg j) ∧
      (∀ a : Nat, a ≠ (s.reg 7).toNat - 1 → u.byteAt a = s.byteAt a) ∧
      u.fl = s.fl ∧ u.out = s.out ∧ u.running = s.running ∧ u.fault = s.fault

/-! ## CALL, RET -/

/-- R151. -/
def Obligations.CallPushesTheReturnAddress : Prop :=
  (∀ a : Byte, encode (.call a) = [0x50#8, a]) ∧
  (∀ (a : Byte) (s : State), 8 ≤ a.toNat → exec (.call a) s = .next (s.raise (.regIndex a))) ∧
  (∀ (i : Fin 8) (s : State), (s.reg 7).toNat = 0 →
    exec (.call (regByte i)) s = .next (s.raise (.memAddr (-1)))) ∧
  (∀ (i : Fin 8) (s : State), 1 ≤ (s.reg 7).toNat → 254 ≤ s.pc.toNat →
    exec (.call (regByte i)) s = .next (s.raise (.memAddr 256))) ∧
  (∀ (i : Fin 8) (s : State), 1 ≤ (s.reg 7).toNat → s.pc.toNat < 254 →
    exec (.call (regByte i)) s =
    .next { s with
      x := s.x.set 7 (s.reg 7 - 1)
      mem := s.mem.write ((s.reg 7).toNat - 1) (BitVec.ofNat 8 (s.pc.toNat + 2))
      pc := (if i = 7 then s.reg 7 - 1 else s.reg i).setWidth 9 })

/-- R153. -/
def Obligations.RetPopsTheProgramCounter : Prop :=
  encode .ret = [0x11#8] ∧
  (∀ s : State, (s.reg 7).toNat = 255 → exec .ret s = .next (s.raise (.memAddr 256))) ∧
  (∀ s : State, (s.reg 7).toNat < 255 → exec .ret s =
    .next { s with
      x := s.x.set 7 (s.reg 7 + 1)
      pc := (s.byteAt (s.reg 7).toNat).setWidth 9 })

/-- R152: a CALL that raises no error, then a RET from any state whose stack pointer and top of stack are
as the CALL left them, sets `pc` to the address after the CALL and the stack pointer to its old value. -/
def Obligations.CallThenRetReturns : Prop :=
  ∀ (i : Fin 8) (s : State), s.mem.wf = true → 1 ≤ (s.reg 7).toNat → s.pc.toNat < 254 →
    ∃ t, exec (.call (regByte i)) s = .next t ∧
      ∀ u : State, u.reg 7 = t.reg 7 → u.byteAt (u.reg 7).toNat = t.byteAt (t.reg 7).toNat →
        ∃ v, exec .ret u = .next v ∧ v.pc.toNat = s.pc.toNat + 2 ∧ v.reg 7 = s.reg 7

/-! ## ALU -/

/-- R161: the sum modulo 256. -/
def Obligations.AddWritesTheSum : Prop :=
  BinaryAluRule .add 0xA0#8 fun p q => (p + q) % 256

/-- R162: the product modulo 256. -/
def Obligations.MulWritesTheProduct : Prop :=
  BinaryAluRule .mul 0xA2#8 fun p q => (p * q) % 256

/-- R163. -/
def Obligations.AndWritesTheConjunction : Prop :=
  BinaryAluRule .and 0xA8#8 fun p q => p &&& q

/-- R164. -/
def Obligations.OrWritesTheDisjunction : Prop :=
  BinaryAluRule .or 0xAA#8 fun p q => p ||| q

/-- R165. -/
def Obligations.XorWritesTheExclusiveOr : Prop :=
  BinaryAluRule .xor 0xAB#8 fun p q => p ^^^ q

/-- R166: NOT writes 255 less the value, which is every bit inverted. -/
def Obligations.NotWritesTheComplement : Prop :=
  (∀ a : Byte, encode (.not a) = [0x69#8, a]) ∧
  (∀ (a : Byte) (s : State), 8 ≤ a.toNat → exec (.not a) s = .next (s.raise (.regIndex a))) ∧
  (∀ (i : Fin 8) (s : State), exec (.not (regByte i)) s =
    .next { s with
      x := s.x.set i (BitVec.ofNat 8 (255 - (s.reg i).toNat))
      pc := s.pc + 2#9 }) ∧
  (∀ v : Byte, BitVec.ofNat 8 (255 - v.toNat) = v ^^^ 0xFF#8)

/-- R167: the amount is the whole byte, so 8 or more gives 0. -/
def Obligations.ShlShiftsByTheWholeByte : Prop :=
  (BinaryAluRule .shl 0xAC#8 fun p q => (p * 2 ^ q) % 256) ∧
  (∀ p q : Byte, 8 ≤ q.toNat → (p.toNat * 2 ^ q.toNat) % 256 = 0)

/-- R168: a logical shift by the whole byte, so 8 or more gives 0. -/
def Obligations.ShrShiftsByTheWholeByte : Prop :=
  (BinaryAluRule .shr 0xAD#8 fun p q => p / 2 ^ q) ∧
  (∀ p q : Byte, 8 ≤ q.toNat → p.toNat / 2 ^ q.toNat = 0)

/-- R169: register checks, then the divisor check, then the unsigned remainder. -/
def Obligations.ModWritesTheRemainder : Prop :=
  (∀ a b : Byte, encode (.mod a b) = [0xA4#8, a, b]) ∧
  (∀ (a b : Byte) (s : State), 8 ≤ a.toNat → exec (.mod a b) s = .next (s.raise (.regIndex a))) ∧
  (∀ (a b : Byte) (s : State), a.toNat < 8 → 8 ≤ b.toNat →
    exec (.mod a b) s = .next (s.raise (.regIndex b))) ∧
  (∀ (i j : Fin 8) (s : State), (s.reg j).toNat = 0 →
    exec (.mod (regByte i) (regByte j)) s = .next (s.raise (.divZero (regByte i) (regByte j)))) ∧
  (∀ (i j : Fin 8) (s : State), 0 < (s.reg j).toNat → exec (.mod (regByte i) (regByte j)) s =
    .next { s with
      x := s.x.set i (BitVec.ofNat 8 ((s.reg i).toNat % (s.reg j).toNat))
      pc := s.pc + 3#9 })

/-- R170: CMP ORs in exactly one of E, G and L by the unsigned order of the two registers. -/
def Obligations.CmpOrsInOneFlag : Prop :=
  (∀ a b : Byte, encode (.cmp a b) = [0xA7#8, a, b]) ∧
  (∀ (a b : Byte) (s : State), 8 ≤ a.toNat → exec (.cmp a b) s = .next (s.raise (.regIndex a))) ∧
  (∀ (a b : Byte) (s : State), a.toNat < 8 → 8 ≤ b.toNat →
    exec (.cmp a b) s = .next (s.raise (.regIndex b))) ∧
  (∀ (i j : Fin 8) (s : State), (s.reg i).toNat = (s.reg j).toNat →
    exec (.cmp (regByte i) (regByte j)) s =
      .next { s with fl := s.fl ||| 0b001#8, pc := s.pc + 3#9 }) ∧
  (∀ (i j : Fin 8) (s : State), (s.reg i).toNat > (s.reg j).toNat →
    exec (.cmp (regByte i) (regByte j)) s =
      .next { s with fl := s.fl ||| 0b010#8, pc := s.pc + 3#9 }) ∧
  (∀ (i j : Fin 8) (s : State), (s.reg i).toNat < (s.reg j).toNat →
    exec (.cmp (regByte i) (regByte j)) s =
      .next { s with fl := s.fl ||| 0b100#8, pc := s.pc + 3#9 })

/-- R172: with one register as both operands the sources are the old value of that register. -/
def Obligations.SameRegisterTwice : Prop :=
  ∀ (i : Fin 8) (s : State),
    (∃ t, exec (.add (regByte i) (regByte i)) s = .next t ∧
      (t.reg i).toNat = (2 * (s.reg i).toNat) % 256) ∧
    (∃ t, exec (.mul (regByte i) (regByte i)) s = .next t ∧
      (t.reg i).toNat = ((s.reg i).toNat ^ 2) % 256) ∧
    (∃ t, exec (.and (regByte i) (regByte i)) s = .next t ∧ t.reg i = s.reg i) ∧
    (∃ t, exec (.or (regByte i) (regByte i)) s = .next t ∧ t.reg i = s.reg i) ∧
    (∃ t, exec (.xor (regByte i) (regByte i)) s = .next t ∧ t.reg i = 0x00#8) ∧
    (∃ t, exec (.shl (regByte i) (regByte i)) s = .next t ∧
      (t.reg i).toNat = ((s.reg i).toNat * 2 ^ (s.reg i).toNat) % 256) ∧
    (∃ t, exec (.shr (regByte i) (regByte i)) s = .next t ∧ (t.reg i).toNat = 0) ∧
    (∃ t, exec (.mod (regByte i) (regByte i)) s = .next t ∧ (0 < (s.reg i).toNat → t.reg i = 0x00#8) ∧
      (s.reg i = 0x00#8 → t = s.raise (.divZero (regByte i) (regByte i)))) ∧
    (∃ t, exec (.cmp (regByte i) (regByte i)) s = .next t ∧ t.fl = s.fl ||| 0x01#8)

/-! ## JMP, JEQ, JNE -/

/-- R191. -/
def Obligations.JmpGoesToItsRegister : Prop :=
  (∀ a : Byte, encode (.jmp a) = [0x54#8, a]) ∧
  (∀ (a : Byte) (s : State), 8 ≤ a.toNat → exec (.jmp a) s = .next (s.raise (.regIndex a))) ∧
  (∀ (i : Fin 8) (s : State), exec (.jmp (regByte i)) s =
    .next { s with pc := (s.reg i).setWidth 9 })

/-- R192: taken exactly when bit 0 of `fl` is 1; not taken, operand a is not checked. -/
def Obligations.JeqIsTakenExactlyWhenEqualIsSet : Prop :=
  (∀ a : Byte, encode (.jeq a) = [0x55#8, a]) ∧
  (∀ (a : Byte) (s : State), s.fl.getLsbD 0 = true → 8 ≤ a.toNat →
    exec (.jeq a) s = .next (s.raise (.regIndex a))) ∧
  (∀ (i : Fin 8) (s : State), s.fl.getLsbD 0 = true →
    exec (.jeq (regByte i)) s = .next { s with pc := (s.reg i).setWidth 9 }) ∧
  (∀ (a : Byte) (s : State), s.fl.getLsbD 0 = false →
    exec (.jeq a) s = .next { s with pc := s.pc + 2#9 })

/-- R193: taken exactly when bit 0 of `fl` is 0; not taken, operand a is not checked. -/
def Obligations.JneIsTakenExactlyWhenEqualIsClear : Prop :=
  (∀ a : Byte, encode (.jne a) = [0x56#8, a]) ∧
  (∀ (a : Byte) (s : State), s.fl.getLsbD 0 = false → 8 ≤ a.toNat →
    exec (.jne a) s = .next (s.raise (.regIndex a))) ∧
  (∀ (i : Fin 8) (s : State), s.fl.getLsbD 0 = false →
    exec (.jne (regByte i)) s = .next { s with pc := (s.reg i).setWidth 9 }) ∧
  (∀ (a : Byte) (s : State), s.fl.getLsbD 0 = true →
    exec (.jne a) s = .next { s with pc := s.pc + 2#9 })

/-! ## Frames -/

/-- The frame of the instructions that write the register operand a names (R22, R130, R160): every other
register, every byte of memory, `fl` and the output are unchanged, and `running` and `fault` too unless
an error was taken. -/
def Obligations.RegisterWritersFrame : Prop :=
  ∀ (a b : Byte) (i : Instr) (s t : State),
    i ∈ [Instr.ldi a b, .add a b, .mul a b, .and a b, .or a b, .xor a b, .not a, .shl a b, .shr a b,
      .mod a b] → exec i s = .next t →
    s.sameRegsExcept t [a] ∧ s.sameMemory t ∧ t.fl = s.fl ∧ t.out = s.out ∧ s.sameControlOrError t

/-- The frame of the instructions that write no register and no memory (R22, R57): all registers and all
of memory are unchanged; `fl` changes only under CMP, which keeps every set bit and leaves bits 7:3
alone; the output only under PRN; HLT clears `running` and leaves `fault`, and the others leave both
unless an error was taken. -/
def Obligations.NonWritersFrame : Prop :=
  ∀ (a b : Byte) (i : Instr) (s t : State),
    i ∈ [Instr.prn a, .hlt, .cmp a b, .jmp a, .jeq a, .jne a] → exec i s = .next t →
    s.sameRegsExcept t [] ∧ s.sameMemory t ∧
    (i ≠ .cmp a b → t.fl = s.fl) ∧
    (∀ k : Nat, s.fl.getLsbD k = true → t.fl.getLsbD k = true) ∧
    (∀ k : Nat, 3 ≤ k → t.fl.getLsbD k = s.fl.getLsbD k) ∧
    (i ≠ .prn a → t.out = s.out) ∧
    (i ≠ .hlt → s.sameControlOrError t) ∧ (i = .hlt → t.running = false ∧ t.fault = s.fault)

/-- The frame of POP and RET (R143, R153): register 7, the stack pointer, and for POP the register that
operand a names may change, no other; memory, `fl` and the output are unchanged. -/
def Obligations.PoppersFrame : Prop :=
  ∀ (a : Byte) (s t : State),
    (exec (.pop a) s = .next t →
      s.sameRegsExcept t [a, 7] ∧ s.sameMemory t ∧ t.fl = s.fl ∧ t.out = s.out ∧
        s.sameControlOrError t) ∧
    (exec .ret s = .next t →
      s.sameRegsExcept t [7] ∧ s.sameMemory t ∧ t.fl = s.fl ∧ t.out = s.out ∧ s.sameControlOrError t)

/-- The frame of PUSH and CALL (R141, R151), which also update register 7, the stack pointer: every other
register, `fl` and the output are unchanged; every byte of memory but the one at the address the meaning
computes, `pushAddr`, reads as before, and all of memory where that address does not exist. -/
def Obligations.PushersFrame : Prop :=
  ∀ (a : Byte) (i : Instr) (s t : State), i ∈ [Instr.push a, .call a] → exec i s = .next t →
    s.sameRegsExcept t [7] ∧ t.fl = s.fl ∧ t.out = s.out ∧ s.sameControlOrError t ∧
    (∀ p : Nat, pushAddr s = p → ∀ q : Nat, q ≠ p → t.byteAt q = s.byteAt q) ∧
    (pushAddr s < 0 → s.sameMemory t)

/-- The stored byte (R141, R151), in a memory in canonical form: PUSH leaves at `pushAddr` the register's
value, read after the stack pointer moved; CALL leaves there the address after itself. -/
def Obligations.PushersStoreTheirByte : Prop :=
  ∀ (i : Fin 8) (s t : State) (p : Nat), s.mem.wf = true → pushAddr s = p →
    (exec (.push (regByte i)) s = .next t → t.byteAt p = (if i = 7 then s.reg 7 - 1 else s.reg i)) ∧
    (s.pc.toNat < 254 → exec (.call (regByte i)) s = .next t →
      (t.byteAt p).toNat = s.pc.toNat + 2)

/-! ## Memory primitives and error codes -/

/-- R52, R53: the two memory primitives on integer addresses: outside 0 to 255 each raises MEM_ADDR with
that address; a read answers the cell; a write is read back and changes no other cell. -/
def Obligations.MemoryPrimitivesCheckTheRange : Prop :=
  (∀ (s : State) (a : Int) (v : Byte), a < 0 ∨ 255 < a →
    memRead s a = .error (.memAddr a) ∧ memWrite s a v = .error (.memAddr a)) ∧
  (∀ (s : State) (a : Nat) (v : Byte), s.mem.wf = true → a < 256 →
    memRead s a = .ok (s.byteAt a) ∧
    ∃ t, memWrite s a v = .ok t ∧ memRead t a = .ok v ∧ t.mem.wf = true ∧
      (∀ b : Nat, b ≠ a → t.byteAt b = s.byteAt b) ∧ t = { s with mem := t.mem })

/-- R206: the kind code and sub-code of every cause, and the host's own kind code. -/
def Obligations.CauseCodesAreTheTables : Prop :=
  kindCode none = 0 ∧ subCode none = 0 ∧ loadErrorKindCode = 1 ∧
  (∀ (op : Byte) (p : Pc), kindCode (some (.decodeError op p)) = 2 ∧
    subCode (some (.decodeError op p)) = 0) ∧
  (∀ i : Byte, kindCode (some (.regIndex i)) = 3 ∧ subCode (some (.regIndex i)) = 1) ∧
  (∀ a : Int, kindCode (some (.memAddr a)) = 3 ∧ subCode (some (.memAddr a)) = 2) ∧
  (∀ a b : Byte, kindCode (some (.divZero a b)) = 3 ∧ subCode (some (.divZero a b)) = 3)
end

