-- ==== Sys2Proof/Laws/Encoding.lean ====
section
/-! SUPPORT. The dispatch table read both ways, and the opcode fields. -/

namespace Sys2Proof

theorem operandCount_le (ir : Byte) : operandCount ir ≤ 3 := by
  have := (ir.extractLsb' 6 2).isLt
  simp only [operandCount]
  omega

/-- What the table answers for a key: the instruction with that opcode, holding the operands its count
asks for. -/
theorem lookup_eq_some {ir a b : Byte} {i : Instr} (h : lookup ir a b = some i) :
    i.opcode = ir ∧ i.operands = [a, b].take (operandCount ir) := by
  unfold lookup at h
  split at h <;> cases h <;> simp [Instr.opcode, Instr.operands, operandCount]

/-- The opcode byte of an instruction is its key. -/
theorem lookup_opcode (i : Instr) (a b : Byte) (h : i.operands = [a, b].take (operandCount i.opcode)) :
    lookup i.opcode a b = some i := by
  cases i <;> simp_all [Instr.opcode, Instr.operands, operandCount, lookup]

/-- Whether a byte is a key does not depend on the operands (R114). -/
theorem lookup_eq_none {ir a b : Byte} : lookup ir a b = none ↔ listedOpcode ir = false := by
  unfold listedOpcode lookup
  split <;> simp

theorem operandCount_opcode (i : Instr) : operandCount i.opcode = i.operands.length := by
  cases i <;> simp [Instr.opcode, Instr.operands, operandCount]

end Sys2Proof
end

