-- ==== Sys2Proof/Laws/Flags.lean ====
section
/-! SUPPORT. The compare mask, case by case, and what ORing it in does to the flags register. -/

namespace Sys2Proof.Machine

theorem compareMask_equal {p q : Byte} (h : p.toNat = q.toNat) : compareMask p q = maskE := if_pos h

theorem compareMask_greater {p q : Byte} (h : q.toNat < p.toNat) : compareMask p q = maskG := by
  rw [compareMask, if_neg (by omega), if_pos h]

theorem compareMask_less {p q : Byte} (h : p.toNat < q.toNat) : compareMask p q = maskL := by
  rw [compareMask, if_neg (by omega), if_neg (by omega)]

/-- The mask is one of the three flags (R170). -/
theorem compareMask_cases (p q : Byte) :
    compareMask p q = maskE ∨ compareMask p q = maskG ∨ compareMask p q = maskL := by
  rcases Nat.lt_trichotomy p.toNat q.toNat with h | h | h
  · exact .inr (.inr (compareMask_less h))
  · exact .inl (compareMask_equal h)
  · exact .inr (.inl (compareMask_greater h))

/-- ORing a mask in clears no bit (R31). -/
theorem orFlags_keeps (s : State) (m : Byte) {k : Nat} (h : s.fl.getLsbD k = true) :
    (s.orFlags m).fl.getLsbD k = true := by
  simp [State.orFlags, h]

/-- A compare leaves `fl` in 0 to 7 (R31). -/
theorem orFlags_compare_lt (s : State) (p q : Byte) (h : s.fl.toNat < 8) :
    (s.orFlags (compareMask p q)).fl.toNat < 8 := by
  have hm : (compareMask p q).toNat < 8 := by
    rcases compareMask_cases p q with e | e | e <;> rw [e] <;> decide
  rw [State.orFlags, BitVec.toNat_or]
  exact Nat.or_lt_two_pow (n := 3) h hm

end Sys2Proof.Machine
end

