-- ==== Sys2Proof/Laws/Memory.lean ====
section
/-! SUPPORT. Memory: read after write, the canonical form is kept, and memories that read alike are
equal. -/

namespace Sys2Proof.Machine

@[simp] theorem Memory.read_nil (a : Nat) : Memory.read [] a = Config.memReset := rfl

/-- Below the first address a canonical tail may list, every address reads as unlisted. -/
theorem Memory.read_below {m : Memory} {lo a : Nat} (h : Memory.wfFrom lo m = true) (ha : a < lo) :
    m.read a = Config.memReset := by
  induction m generalizing lo with
  | nil => rfl
  | cons e m ih =>
    obtain ⟨k, u⟩ := e
    simp only [Memory.wfFrom, Bool.and_eq_true, decide_eq_true_eq] at h
    have hk : k ≠ a := by omega
    simp only [Memory.read, hk, if_false]
    exact ih h.2 (by omega)

/-- A higher bound may be lowered. -/
theorem Memory.wfFrom_mono {m : Memory} {lo lo' : Nat} (h : Memory.wfFrom lo m = true)
    (hle : lo' ≤ lo) : Memory.wfFrom lo' m = true := by
  cases m with
  | nil => rfl
  | cons e m =>
    obtain ⟨k, u⟩ := e
    simp only [Memory.wfFrom, Bool.and_eq_true, decide_eq_true_eq] at h ⊢
    exact ⟨⟨⟨by omega, h.1.1.2⟩, h.1.2⟩, h.2⟩

/-- A write leaves every other address alone; this needs no canonical form. -/
theorem Memory.read_write_ne (m : Memory) {a b : Nat} (v : Byte) (h : b ≠ a) :
    (m.write a v).read b = m.read b := by
  induction m with
  | nil => unfold Memory.write; split <;> simp [Memory.read, Ne.symm h]
  | cons e m ih =>
    obtain ⟨k, u⟩ := e
    simp only [Memory.write]
    split
    · split <;> simp [Memory.read, Ne.symm h]
    · split
      · rename_i hk
        subst hk
        split <;> simp [Memory.read, Ne.symm h]
      · simp only [Memory.read, ih]

/-- A read of the written address gives the written byte. -/
theorem Memory.read_write_same {m : Memory} {lo a : Nat} (h : Memory.wfFrom lo m = true) (v : Byte) :
    (m.write a v).read a = v := by
  induction m generalizing lo with
  | nil => unfold Memory.write; split <;> simp_all [Memory.read]
  | cons e m ih =>
    obtain ⟨k, u⟩ := e
    have hw := h
    simp only [Memory.wfFrom, Bool.and_eq_true, decide_eq_true_eq] at h
    simp only [Memory.write]
    split
    · split
      · rename_i hlt hv
        rw [hv]
        have hk : k ≠ a := by omega
        simp only [Memory.read, hk, if_false]
        exact Memory.read_below h.2 (by omega)
      · simp [Memory.read]
    · split
      · split
        · rename_i hk hv
          rw [hv]
          exact Memory.read_below h.2 (by omega)
        · simp [Memory.read]
      · rename_i hne
        have hk : k ≠ a := fun e => hne e.symm
        simp only [Memory.read, hk, if_false]
        exact ih h.2

theorem Memory.wfFrom_write {m : Memory} {lo a : Nat} (h : Memory.wfFrom lo m = true) (hlo : lo ≤ a)
    (ha : a < 256) (v : Byte) : Memory.wfFrom lo (m.write a v) = true := by
  induction m generalizing lo with
  | nil =>
    unfold Memory.write
    split
    · rfl
    · rename_i hv
      simp [Memory.wfFrom, hlo, ha, hv]
  | cons e m ih =>
    obtain ⟨k, u⟩ := e
    have hw := h
    simp only [Memory.wfFrom, Bool.and_eq_true, decide_eq_true_eq] at h
    simp only [Memory.write]
    split
    · split
      · exact hw
      · rename_i hlt hv
        simp only [Memory.wfFrom, Bool.and_eq_true, decide_eq_true_eq]
        exact ⟨⟨⟨hlo, ha⟩, hv⟩, ⟨⟨by omega, h.1.1.2⟩, h.1.2⟩, h.2⟩
    · split
      · split
        · exact Memory.wfFrom_mono h.2 (by omega)
        · rename_i hk hv
          simp only [Memory.wfFrom, Bool.and_eq_true, decide_eq_true_eq]
          exact ⟨⟨⟨hlo, ha⟩, hv⟩, hk ▸ h.2⟩
      · simp only [Memory.wfFrom, Bool.and_eq_true, decide_eq_true_eq]
        exact ⟨⟨⟨h.1.1.1, h.1.1.2⟩, h.1.2⟩, ih h.2 (by omega)⟩

/-- A write to an existing cell keeps the canonical form. -/
theorem Memory.wf_write {m : Memory} (h : m.wf = true) {a : Nat} (ha : a < 256) (v : Byte) :
    (m.write a v).wf = true := Memory.wfFrom_write h (Nat.zero_le a) ha v

theorem Memory.eq_of_read {m m' : Memory} {lo : Nat} (h : Memory.wfFrom lo m = true)
    (h' : Memory.wfFrom lo m' = true) (he : ∀ a, m.read a = m'.read a) : m = m' := by
  induction m generalizing m' lo with
  | nil =>
    cases m' with
    | nil => rfl
    | cons e m' =>
      obtain ⟨k, u⟩ := e
      simp only [Memory.wfFrom, Bool.and_eq_true, decide_eq_true_eq] at h'
      have := he k
      simp only [Memory.read, if_true] at this
      exact absurd this.symm h'.1.2
  | cons e m ih =>
    obtain ⟨k, u⟩ := e
    have hw := h
    simp only [Memory.wfFrom, Bool.and_eq_true, decide_eq_true_eq] at h
    cases m' with
    | nil =>
      have := he k
      simp only [Memory.read, if_true] at this
      exact absurd this h.1.2
    | cons e' m' =>
      obtain ⟨k', u'⟩ := e'
      have hw' := h'
      simp only [Memory.wfFrom, Bool.and_eq_true, decide_eq_true_eq] at h'
      have hk : k = k' := by
        rcases Nat.lt_trichotomy k k' with hlt | heq | hlt
        · have h1 := he k
          rw [Memory.read_below (lo := k') (m := (k', u') :: m')
            (by simp [Memory.wfFrom, h'.1.1.2, h'.1.2, h'.2]) hlt] at h1
          simp only [Memory.read, if_true] at h1
          exact absurd h1 h.1.2
        · exact heq
        · have h1 := he k'
          rw [Memory.read_below (lo := k) (m := (k, u) :: m)
            (by simp [Memory.wfFrom, h.1.1.2, h.1.2, h.2]) hlt] at h1
          simp only [Memory.read, if_true] at h1
          exact absurd h1.symm h'.1.2
      subst hk
      have hu : u = u' := by simpa [Memory.read] using he k
      subst hu
      congr 1
      refine ih h.2 h'.2 fun a => ?_
      by_cases ha : k = a
      · rw [Memory.read_below h.2 (by omega), Memory.read_below h'.2 (by omega)]
      · simpa [Memory.read, ha] using he a

/-- Canonical memories that read alike at every address are equal data. -/
theorem Memory.ext_read {m m' : Memory} (h : m.wf = true) (h' : m'.wf = true)
    (he : ∀ a, m.read a = m'.read a) : m = m' := Memory.eq_of_read h h' he

/-! ### Placing bytes -/

theorem placeBytes_wf {m : Memory} (h : m.wf = true) (a : Nat) (bs : List Byte) :
    (placeBytes m a bs).wf = true := by
  induction bs generalizing m a with
  | nil => exact h
  | cons v bs ih =>
    simp only [placeBytes]
    split
    · rename_i ha
      exact ih (Memory.wf_write h ha v) (a + 1)
    · exact ih h (a + 1)

/-- Placing bytes leaves every cell below them alone. -/
theorem placeBytes_read_below (m : Memory) (a b : Nat) (bs : List Byte) (hb : b < a) :
    (placeBytes m a bs).read b = m.read b := by
  induction bs generalizing m a with
  | nil => rfl
  | cons v bs ih =>
    simp only [placeBytes]
    rw [ih _ _ (by omega)]
    split
    · exact Memory.read_write_ne m v (by omega)
    · rfl

/-- Placing bytes leaves every cell above them alone. -/
theorem placeBytes_read_above (m : Memory) (a b : Nat) (bs : List Byte) (hb : a + bs.length ≤ b) :
    (placeBytes m a bs).read b = m.read b := by
  induction bs generalizing m a with
  | nil => rfl
  | cons v bs ih =>
    simp only [List.length_cons] at hb
    simp only [placeBytes]
    rw [ih _ _ (by omega)]
    split
    · exact Memory.read_write_ne m v (by omega)
    · rfl

/-- Each placed byte that has a cell is there. -/
theorem placeBytes_read {m : Memory} (h : m.wf = true) (a : Nat) (bs : List Byte) (k : Nat)
    (hk : k < bs.length) (ha : a + k < 256) : (placeBytes m a bs).read (a + k) = bs[k] := by
  induction bs generalizing m a k with
  | nil => exact absurd hk (Nat.not_lt_zero k)
  | cons v bs ih =>
    have ha' : a < Config.memCells := by simp only [Config.memCells]; omega
    simp only [placeBytes, ha', if_true]
    cases k with
    | zero =>
      rw [Nat.add_zero, placeBytes_read_below _ _ _ _ (by omega)]
      exact Memory.read_write_same h v
    | succ k =>
      have := ih (Memory.wf_write h ha' v) (a + 1) k (by simpa using hk) (by omega)
      rw [show a + (k + 1) = a + 1 + k by omega, this]
      rfl

end Sys2Proof.Machine
end

