-- ==== Sys2Proof/Laws/State.lean ====
section
/-! SUPPORT. One lemma per field of State per update, so that no proof unfolds a record update, and the
register file's read-after-write law. -/

namespace Sys2Proof.Machine

/-! ### setReg -/

@[simp] theorem State.setReg_mem (s : State) (i : Fin 8) (v : Byte) : (s.setReg i v).mem = s.mem := rfl
@[simp] theorem State.setReg_x (s : State) (i : Fin 8) (v : Byte) : (s.setReg i v).x = s.x.set i v := rfl
@[simp] theorem State.setReg_pc (s : State) (i : Fin 8) (v : Byte) : (s.setReg i v).pc = s.pc := rfl
@[simp] theorem State.setReg_fl (s : State) (i : Fin 8) (v : Byte) : (s.setReg i v).fl = s.fl := rfl
@[simp] theorem State.setReg_running (s : State) (i : Fin 8) (v : Byte) : (s.setReg i v).running = s.running := rfl
@[simp] theorem State.setReg_fault (s : State) (i : Fin 8) (v : Byte) : (s.setReg i v).fault = s.fault := rfl
@[simp] theorem State.setReg_out (s : State) (i : Fin 8) (v : Byte) : (s.setReg i v).out = s.out := rfl

/-! ### setPc -/

@[simp] theorem State.setPc_mem (s : State) (p : Pc) : (s.setPc p).mem = s.mem := rfl
@[simp] theorem State.setPc_x (s : State) (p : Pc) : (s.setPc p).x = s.x := rfl
@[simp] theorem State.setPc_pc (s : State) (p : Pc) : (s.setPc p).pc = p := rfl
@[simp] theorem State.setPc_fl (s : State) (p : Pc) : (s.setPc p).fl = s.fl := rfl
@[simp] theorem State.setPc_running (s : State) (p : Pc) : (s.setPc p).running = s.running := rfl
@[simp] theorem State.setPc_fault (s : State) (p : Pc) : (s.setPc p).fault = s.fault := rfl
@[simp] theorem State.setPc_out (s : State) (p : Pc) : (s.setPc p).out = s.out := rfl
@[simp] theorem State.setPc_reg (s : State) (p : Pc) (j : Fin 8) : (s.setPc p).reg j = s.reg j := rfl

/-! ### raise -/

@[simp] theorem State.raise_mem (s : State) (c : FaultCause) : (s.raise c).mem = s.mem := rfl
@[simp] theorem State.raise_x (s : State) (c : FaultCause) : (s.raise c).x = s.x := rfl
@[simp] theorem State.raise_pc (s : State) (c : FaultCause) : (s.raise c).pc = s.pc := rfl
@[simp] theorem State.raise_fl (s : State) (c : FaultCause) : (s.raise c).fl = s.fl := rfl
@[simp] theorem State.raise_running (s : State) (c : FaultCause) : (s.raise c).running = false := rfl
@[simp] theorem State.raise_fault (s : State) (c : FaultCause) : (s.raise c).fault = some c := rfl
@[simp] theorem State.raise_out (s : State) (c : FaultCause) : (s.raise c).out = s.out := rfl
@[simp] theorem State.raise_reg (s : State) (c : FaultCause) (j : Fin 8) : (s.raise c).reg j = s.reg j := rfl

/-! ### emit -/

@[simp] theorem State.emit_mem (s : State) (v : Byte) : (s.emit v).mem = s.mem := rfl
@[simp] theorem State.emit_x (s : State) (v : Byte) : (s.emit v).x = s.x := rfl
@[simp] theorem State.emit_pc (s : State) (v : Byte) : (s.emit v).pc = s.pc := rfl
@[simp] theorem State.emit_fl (s : State) (v : Byte) : (s.emit v).fl = s.fl := rfl
@[simp] theorem State.emit_running (s : State) (v : Byte) : (s.emit v).running = s.running := rfl
@[simp] theorem State.emit_fault (s : State) (v : Byte) : (s.emit v).fault = s.fault := rfl
@[simp] theorem State.emit_out (s : State) (v : Byte) : (s.emit v).out = s.out ++ [v] := rfl
@[simp] theorem State.emit_reg (s : State) (v : Byte) (j : Fin 8) : (s.emit v).reg j = s.reg j := rfl

/-! ### stop -/

@[simp] theorem State.stop_mem (s : State) : (s.stop).mem = s.mem := rfl
@[simp] theorem State.stop_x (s : State) : (s.stop).x = s.x := rfl
@[simp] theorem State.stop_pc (s : State) : (s.stop).pc = s.pc := rfl
@[simp] theorem State.stop_fl (s : State) : (s.stop).fl = s.fl := rfl
@[simp] theorem State.stop_running (s : State) : (s.stop).running = false := rfl
@[simp] theorem State.stop_fault (s : State) : (s.stop).fault = s.fault := rfl
@[simp] theorem State.stop_out (s : State) : (s.stop).out = s.out := rfl
@[simp] theorem State.stop_reg (s : State) (j : Fin 8) : (s.stop).reg j = s.reg j := rfl

/-! ### orFlags -/

@[simp] theorem State.orFlags_mem (s : State) (m : Byte) : (s.orFlags m).mem = s.mem := rfl
@[simp] theorem State.orFlags_x (s : State) (m : Byte) : (s.orFlags m).x = s.x := rfl
@[simp] theorem State.orFlags_pc (s : State) (m : Byte) : (s.orFlags m).pc = s.pc := rfl
@[simp] theorem State.orFlags_fl (s : State) (m : Byte) : (s.orFlags m).fl = s.fl ||| m := rfl
@[simp] theorem State.orFlags_running (s : State) (m : Byte) : (s.orFlags m).running = s.running := rfl
@[simp] theorem State.orFlags_fault (s : State) (m : Byte) : (s.orFlags m).fault = s.fault := rfl
@[simp] theorem State.orFlags_out (s : State) (m : Byte) : (s.orFlags m).out = s.out := rfl
@[simp] theorem State.orFlags_reg (s : State) (m : Byte) (j : Fin 8) : (s.orFlags m).reg j = s.reg j := rfl

/-! ### advance -/

@[simp] theorem State.advance_mem (s : State) (n : Nat) : (s.advance n).mem = s.mem := rfl
@[simp] theorem State.advance_x (s : State) (n : Nat) : (s.advance n).x = s.x := rfl
@[simp] theorem State.advance_pc (s : State) (n : Nat) : (s.advance n).pc = s.pc + BitVec.ofNat 9 (n + 1) := rfl
@[simp] theorem State.advance_fl (s : State) (n : Nat) : (s.advance n).fl = s.fl := rfl
@[simp] theorem State.advance_running (s : State) (n : Nat) : (s.advance n).running = s.running := rfl
@[simp] theorem State.advance_fault (s : State) (n : Nat) : (s.advance n).fault = s.fault := rfl
@[simp] theorem State.advance_out (s : State) (n : Nat) : (s.advance n).out = s.out := rfl
@[simp] theorem State.advance_reg (s : State) (n : Nat) (j : Fin 8) : (s.advance n).reg j = s.reg j := rfl

/-! ### Registers -/

/-- Reading after a write: the written register has the value, every other register is as before. -/
theorem Regs.get_set (x : Regs) (i j : Fin 8) (v : Byte) :
    (x.set i v).get j = if j = i then v else x.get j := by
  fin_cases i <;> fin_cases j <;> rfl

/-- Two register files that read alike are equal. -/
theorem Regs.ext_get {x y : Regs} (h : ∀ i, x.get i = y.get i) : x = y := by
  cases x; cases y
  have h0 := h 0; have h1 := h 1; have h2 := h 2; have h3 := h 3
  have h4 := h 4; have h5 := h 5; have h6 := h 6; have h7 := h 7
  simp only [Regs.get] at h0 h1 h2 h3 h4 h5 h6 h7
  simp [*]

theorem State.setReg_reg (s : State) (i j : Fin 8) (v : Byte) :
    (s.setReg i v).reg j = if j = i then v else s.reg j := Regs.get_set s.x i j v

@[simp] theorem State.setReg_reg_same (s : State) (i : Fin 8) (v : Byte) :
    (s.setReg i v).reg i = v := by simp [State.setReg_reg]

theorem State.setReg_reg_ne (s : State) {i j : Fin 8} (h : j ≠ i) (v : Byte) :
    (s.setReg i v).reg j = s.reg j := by simp [State.setReg_reg, h]

/-- SP is register 7 (R23). -/
@[simp] theorem State.setSp_eq (s : State) (v : Byte) : s.setSp v = s.setReg 7 v := rfl

@[simp] theorem State.sp_eq (s : State) : s.sp = s.reg 7 := rfl

end Sys2Proof.Machine
end

