-- ==== Sys2Proof/Laws/Operands.lean ====
section
/-! SUPPORT. What each operand form, range check and memory primitive can answer. -/

namespace Sys2Proof.Machine

theorem regByte_toNat (i : Fin 8) : (regByte i).toNat = i.val := by
  revert i; decide

theorem regByte_inj {i j : Fin 8} : regByte i = regByte j ↔ i = j := by
  revert i j; decide

/-- The byte that names register `i` selects it. -/
@[simp] theorem checkReg_regByte (i : Fin 8) : checkReg (regByte i) = .ok i := by
  revert i; decide

/-- `checkReg` selects only the register the byte names. -/
theorem checkReg_eq_ok {a : Byte} {i : Fin 8} : checkReg a = .ok i ↔ a = regByte i := by
  constructor
  · intro h
    unfold checkReg at h
    split at h
    · injection h with h
      subst h
      simp [regByte]
    · exact nomatch h
  · rintro rfl
    exact checkReg_regByte i

/-- An index above 7 raises REG_INDEX (R203). -/
theorem checkReg_high {a : Byte} (h : 8 ≤ a.toNat) : checkReg a = .error (.regIndex a) := by
  unfold checkReg
  split
  · omega
  · rfl

theorem checkReg_low {a : Byte} (h : a.toNat < 8) : ∃ i, a = regByte i ∧ checkReg a = .ok i :=
  ⟨⟨a.toNat, h⟩, by simp [regByte], by simp [checkReg, h]⟩

/-- `checkReg` raises nothing else. -/
theorem checkReg_eq_error {a : Byte} {c : FaultCause} (h : checkReg a = .error c) :
    c = .regIndex a ∧ 8 ≤ a.toNat := by
  unfold checkReg at h
  split at h
  · exact nomatch h
  · injection h with h
    exact ⟨h.symm, by omega⟩

/-- A read inside memory (R52). -/
theorem memRead_ok (s : State) {a : Nat} (h : a < 256) : memRead s a = .ok (s.mem.read a) := by
  unfold memRead
  rw [if_neg (by omega)]
  rfl

theorem memRead_succ_ok (s : State) {a k : Nat} (h : a + k < 256) :
    memRead s ((a : Int) + (k : Int)) = .ok (s.mem.read (a + k)) := memRead_ok s (a := a + k) h

/-- A read outside memory raises MEM_ADDR (R52). -/
theorem memRead_out (s : State) {a : Int} (h : a < 0 ∨ 255 < a) :
    memRead s a = .error (.memAddr a) := if_pos h

theorem memRead_eq_error {s : State} {a : Int} {c : FaultCause} (h : memRead s a = .error c) :
    c = .memAddr a ∧ (a < 0 ∨ 255 < a) := by
  unfold memRead at h
  split at h
  · injection h with h
    exact ⟨h.symm, ‹_›⟩
  · exact nomatch h

/-- Popping reads the top of the stack: its address is always valid (R143, R153). -/
@[simp] theorem memRead_popAddr (s : State) :
    memRead s (popAddr s) = .ok (s.mem.read (s.reg 7).toNat) :=
  memRead_ok s (s.reg 7).isLt

/-- A write inside memory (R53). -/
theorem memWrite_ok (s : State) {a : Int} (h0 : 0 ≤ a) (h : a ≤ 255) (v : Byte) :
    memWrite s a v = .ok { s with mem := s.mem.write a.toNat v } := by
  unfold memWrite
  rw [if_neg (by omega)]

/-- Everything the stack check of a push can answer: the pointer less one, or MEM_ADDR -1 at 0. -/
theorem checkPush_cases (s : State) :
    ((s.reg 7).toNat = 0 ∧ checkPush s = .error (.memAddr (-1))) ∨
    (1 ≤ (s.reg 7).toNat ∧ checkPush s = .ok (pushAddr s) ∧
      pushAddr s = (((s.reg 7).toNat - 1 : Nat) : Int) ∧
      BitVec.ofInt 8 (pushAddr s) = s.reg 7 - 1) := by
  by_cases h : (s.reg 7).toNat = 0
  · left
    refine ⟨h, if_pos ?_⟩
    simp [pushAddr, h]
  · right
    have e : pushAddr s = (((s.reg 7).toNat - 1 : Nat) : Int) := by
      simp only [pushAddr, State.sp_eq]; omega
    refine ⟨by omega, if_neg (by omega), e, ?_⟩
    rw [e, BitVec.ofInt_natCast]
    apply BitVec.eq_of_toNat_eq
    have := (s.reg 7).isLt
    rw [BitVec.toNat_ofNat, BitVec.toNat_sub, show (1 : Byte).toNat = 1 from rfl]
    omega

/-- PUSH and CALL with the stack pointer at 0 (R141, R151). -/
theorem checkPush_zero {s : State} (h : (s.reg 7).toNat = 0) :
    checkPush s = .error (.memAddr (-1)) := by
  rcases checkPush_cases s with ⟨_, e⟩ | ⟨h1, _⟩
  · exact e
  · omega

/-- Everything the check of an address to be stored can answer. -/
theorem checkByteAddr_cases (t : Nat) :
    (t ≤ 255 ∧ checkByteAddr (t : Int) = .ok (BitVec.ofNat 8 t)) ∨
    (255 < t ∧ checkByteAddr (t : Int) = .error (.memAddr 256)) := by
  by_cases h : 255 < t
  · exact .inr ⟨h, if_pos (by omega)⟩
  · refine .inl ⟨by omega, ?_⟩
    unfold checkByteAddr
    rw [if_neg (by omega), BitVec.ofInt_natCast]

/-- The stack pointer after a pop, where it stays a byte. -/
theorem checkByteAddr_succ {v : Byte} (h : v.toNat < 255) :
    checkByteAddr ((v.toNat : Int) + 1) = .ok (v + 1) := by
  rcases checkByteAddr_cases (v.toNat + 1) with ⟨_, e⟩ | ⟨h', _⟩
  · have hv : BitVec.ofNat 8 (v.toNat + 1) = v + 1 := by
      apply BitVec.eq_of_toNat_eq
      rw [BitVec.toNat_ofNat, BitVec.toNat_add, show (1 : Byte).toNat = 1 from rfl]
    rw [← hv, ← e]
    rfl
  · omega

/-- The stack pointer after a pop, where it would leave the address space (R143, R153). -/
theorem checkByteAddr_succ_out {v : Byte} (h : v.toNat = 255) :
    checkByteAddr ((v.toNat : Int) + 1) = .error (.memAddr 256) := by
  unfold checkByteAddr
  rw [if_pos (by omega)]

theorem checkByteAddr_eq_error {t : Int} {c : FaultCause} (h : checkByteAddr t = .error c) :
    c = .memAddr 256 := by
  unfold checkByteAddr at h
  split at h
  · injection h with h
    exact h.symm
  · exact nomatch h

@[simp] theorem target_toNat (v : Byte) : (target v).toNat = v.toNat := by
  have := v.isLt
  simp only [target, BitVec.toNat_setWidth]
  omega

end Sys2Proof.Machine
end

