-- ==== Sys2Proof/Laws/Handler.lean ====
section
/-! SUPPORT. What the cycle does around a handler, and what each handler shape can answer. -/

namespace Sys2Proof.Machine

@[simp] theorem runHandler_error (ir : Byte) (s : State) (c : FaultCause) :
    runHandler ir s (.error c) = .next (s.raise c) := rfl

theorem runHandler_ok (ir : Byte) (s t : State) :
    runHandler ir s (.ok t) = .next (if setsPc ir then t else t.advance (operandCount ir)) := rfl

/-- Everything a handler run can do (R110 steps 6 and 7, R210): an error taken in the old state, or the
handler's state with `pc` advanced unless bit 4 of the opcode is set. -/
theorem runHandler_cases {ir : Byte} {s t : State} {h : Except FaultCause State}
    (e : runHandler ir s h = .next t) :
    (∃ c, h = .error c ∧ t = s.raise c) ∨
    (∃ u, h = .ok u ∧ t = if setsPc ir then u else u.advance (operandCount ir)) := by
  cases h with
  | error c =>
    injection e with e
    exact .inl ⟨c, rfl, e.symm⟩
  | ok u =>
    injection e with e
    exact .inr ⟨u, rfl, e.symm⟩

/-- A handler run always has a next state. -/
theorem runHandler_next (ir : Byte) (s : State) (h : Except FaultCause State) :
    ∃ t, runHandler ir s h = .next t := by
  cases h with
  | error c => exact ⟨_, rfl⟩
  | ok u => exact ⟨_, rfl⟩

/-- A handler that begins with `checkreg(a)`: an index above 7 is taken as the error, and otherwise the
rest of the handler runs with the register named. -/
theorem runHandler_checkReg {ir a : Byte} {s t : State} {f : Fin 8 → Except FaultCause State}
    (h : runHandler ir s (checkReg a >>= f) = .next t) :
    (8 ≤ a.toNat ∧ t = s.raise (.regIndex a)) ∨
    (∃ j, a = regByte j ∧ runHandler ir s (f j) = .next t) := by
  by_cases ha : a.toNat < 8
  · obtain ⟨j, rfl, hj⟩ := checkReg_low ha
    rw [hj] at h
    exact .inr ⟨j, rfl, h⟩
  · rw [checkReg_high (by omega)] at h
    injection h with h
    exact .inl ⟨by omega, h.symm⟩

/-- A handler that goes on with a check `e` of cause `c` or value. -/
theorem runHandler_check {α : Type} {ir : Byte} {s t : State} {e : Except FaultCause α}
    {f : α → Except FaultCause State} (h : runHandler ir s (e >>= f) = .next t) :
    (∃ c, e = .error c ∧ t = s.raise c) ∨ (∃ v, e = .ok v ∧ runHandler ir s (f v) = .next t) := by
  cases e with
  | error c =>
    injection h with h
    exact .inl ⟨c, rfl, h.symm⟩
  | ok v => exact .inr ⟨v, rfl, h⟩

/-- Everything the two-operand ALU shape can answer. -/
theorem aluBinary_cases (f : Byte → Byte → Byte) (a b : Byte) (s : State) :
    (8 ≤ a.toNat ∧ aluBinary f a b s = .error (.regIndex a)) ∨
    (a.toNat < 8 ∧ 8 ≤ b.toNat ∧ aluBinary f a b s = .error (.regIndex b)) ∨
    (∃ i j, a = regByte i ∧ b = regByte j ∧
      aluBinary f a b s = .ok (s.setReg i (f (s.reg i) (s.reg j)))) := by
  by_cases ha : a.toNat < 8
  · obtain ⟨i, rfl, hi⟩ := checkReg_low ha
    by_cases hb : b.toNat < 8
    · obtain ⟨j, rfl, hj⟩ := checkReg_low hb
      exact .inr (.inr ⟨i, j, rfl, rfl, by simp [aluBinary, bind, Except.bind, pure, Except.pure]⟩)
    · refine .inr (.inl ⟨ha, by omega, ?_⟩)
      simp [aluBinary, checkReg_high (show 8 ≤ b.toNat by omega), bind, Except.bind]
  · refine .inl ⟨by omega, ?_⟩
    simp [aluBinary, checkReg_high (show 8 ≤ a.toNat by omega), bind, Except.bind]

/-- Everything a taken jump can answer. -/
theorem jumpTo_cases (a : Byte) (s : State) :
    (8 ≤ a.toNat ∧ jumpTo a s = .error (.regIndex a)) ∨
    (∃ i, a = regByte i ∧ jumpTo a s = .ok (s.setPc (target (s.reg i)))) := by
  by_cases ha : a.toNat < 8
  · obtain ⟨i, rfl, hi⟩ := checkReg_low ha
    exact .inr ⟨i, rfl, by simp [jumpTo, bind, Except.bind, pure, Except.pure]⟩
  · refine .inl ⟨by omega, ?_⟩
    simp [jumpTo, checkReg_high (show 8 ≤ a.toNat by omega), bind, Except.bind]

end Sys2Proof.Machine
end

