-- ==== Sys2Proof/Laws/Exec.lean ====
section
/-! SUPPORT. Said once: everything an instruction can do. Either it takes an error in the state it started
from, or it completes, and then each piece of state is as before or changed in the one way the instruction
has. -/

namespace Sys2Proof.Machine

/-- What a completed instruction can have done to each piece of state. -/
structure Completed (i : Instr) (s t : State) : Prop where
  fault : t.fault = s.fault
  mem : t.mem = s.mem ∨ ((i.opcode = 0x45#8 ∨ i.opcode = 0x50#8) ∧ 1 ≤ (s.reg 7).toNat ∧
    ∃ v, t.mem = s.mem.write ((s.reg 7).toNat - 1) v)
  fl : t.fl = s.fl ∨ (i.opcode = 0xA7#8 ∧ ∃ p q, t.fl = (s.orFlags (compareMask p q)).fl)
  out : t.out = s.out ∨ (i.opcode = 0x47#8 ∧ ∃ j, t.out = s.out ++ [s.reg j])
  running : t.running = s.running ∨ (i.opcode = 0x01#8 ∧ t.running = false)
  pcSequential : setsPc i.opcode = false →
    t.pc = s.pc + BitVec.ofNat 9 (operandCount i.opcode + 1)
  pcSet : setsPc i.opcode = true → (∃ v : Byte, t.pc = target v) ∨
    (i.operands.length = 1 ∧ t.pc = s.pc + 2#9)

/-- From the handler's state `u` to the end of the instruction: the advance of `pc` touches nothing
else. -/
theorem Completed.ofHandler {i : Instr} {s u : State} (fault : u.fault = s.fault)
    (mem : u.mem = s.mem ∨ ((i.opcode = 0x45#8 ∨ i.opcode = 0x50#8) ∧ 1 ≤ (s.reg 7).toNat ∧
      ∃ v, u.mem = s.mem.write ((s.reg 7).toNat - 1) v))
    (fl : u.fl = s.fl ∨ (i.opcode = 0xA7#8 ∧ ∃ p q, u.fl = (s.orFlags (compareMask p q)).fl))
    (out : u.out = s.out ∨ (i.opcode = 0x47#8 ∧ ∃ j, u.out = s.out ++ [s.reg j]))
    (running : u.running = s.running ∨ (i.opcode = 0x01#8 ∧ u.running = false))
    (pc : if setsPc i.opcode then
        (∃ v : Byte, u.pc = target v) ∨ (i.operands.length = 1 ∧ u.pc = s.pc + 2#9)
      else u.pc = s.pc) :
    Completed i s (if setsPc i.opcode then u else u.advance (operandCount i.opcode)) := by
  cases hs : setsPc i.opcode with
  | true =>
    simp only [hs, if_true] at pc ⊢
    exact ⟨fault, mem, fl, out, running, fun h => by simp [hs] at h, fun _ => pc⟩
  | false =>
    simp only [hs, Bool.false_eq_true, if_false] at pc ⊢
    exact ⟨fault, mem, fl, out, running, fun _ => by rw [State.advance_pc, pc],
      fun h => by simp [hs] at h⟩

/-- A state that differs from `s` in registers alone, at the end of a sequential instruction. -/
theorem Completed.ofRegs {i : Instr} {s u : State} (hs : setsPc i.opcode = false)
    (hu : u = { s with x := u.x }) :
    Completed i s (if setsPc i.opcode then u else u.advance (operandCount i.opcode)) := by
  rw [hu, hs]
  exact ⟨rfl, .inl rfl, .inl rfl, .inl rfl, .inl rfl, fun _ => rfl, fun h => by simp [hs] at h⟩

/-- The two ends of an instruction. -/
abbrev Ends (i : Instr) (s t : State) : Prop :=
  (∃ c, FaultCause.legal c = true ∧ t = s.raise c) ∨ Completed i s t

theorem regIndex_legal {a : Byte} (h : 8 ≤ a.toNat) : FaultCause.legal (.regIndex a) = true := by
  simpa [FaultCause.legal] using h

theorem checkPush_legal {s : State} {c : FaultCause} (h : checkPush s = .error c) :
    FaultCause.legal c = true := by
  rcases checkPush_cases s with ⟨_, e⟩ | ⟨_, e, _⟩ <;> rw [e] at h
  · injection h with h
    exact h ▸ rfl
  · exact nomatch h

theorem checkPush_eq_ok {s : State} {p : Int} (h : checkPush s = .ok p) :
    1 ≤ (s.reg 7).toNat ∧ p = (((s.reg 7).toNat - 1 : Nat) : Int) := by
  rcases checkPush_cases s with ⟨_, e⟩ | ⟨h1, e, ea, _⟩ <;> rw [e] at h
  · exact nomatch h
  · injection h with h
    exact ⟨h1, h ▸ ea⟩

theorem checkByteAddr_legal {t : Int} {c : FaultCause} (h : checkByteAddr t = .error c) :
    FaultCause.legal c = true := by
  rw [checkByteAddr_eq_error h]
  rfl

theorem checkDivisor_legal {i j : Fin 8} {v : Byte} {c : FaultCause}
    (h : checkDivisor (regByte i) (regByte j) v = .error c) : FaultCause.legal c = true := by
  unfold checkDivisor at h
  split at h
  · injection h with h
    rw [← h]
    simp [FaultCause.legal, regByte_toNat]
  · exact nomatch h

/-- The shape of the two-register instructions that write a register. -/
theorem ends_of_aluBinary {i : Instr} {f : Byte → Byte → Byte} {a b : Byte} {s t : State}
    (hs : setsPc i.opcode = false) (h : runHandler i.opcode s (aluBinary f a b s) = .next t) :
    Ends i s t := by
  rcases aluBinary_cases f a b s with ⟨h8, e⟩ | ⟨_, h8, e⟩ | ⟨j, k, _, _, e⟩
  · rw [e] at h
    injection h with h
    exact .inl ⟨_, regIndex_legal h8, h.symm⟩
  · rw [e] at h
    injection h with h
    exact .inl ⟨_, regIndex_legal h8, h.symm⟩
  · rw [e, runHandler_ok] at h
    injection h with h
    subst h
    exact .inr (Completed.ofRegs hs rfl)

/-- The shape of the jumps. -/
theorem ends_of_jump {i : Instr} {a : Byte} {s t : State} {h : Except FaultCause State}
    (hs : setsPc i.opcode = true) (hl : i.operands.length = 1)
    (hh : h = jumpTo a s ∨ h = fallThrough s) (e : runHandler i.opcode s h = .next t) :
    Ends i s t := by
  rcases hh with rfl | rfl
  · rcases jumpTo_cases a s with ⟨h8, ej⟩ | ⟨j, _, ej⟩
    · rw [ej] at e
      injection e with e
      exact .inl ⟨_, regIndex_legal h8, e.symm⟩
    · rw [ej, runHandler_ok, hs] at e
      injection e with e
      subst e
      exact .inr ⟨rfl, .inl rfl, .inl rfl, .inl rfl, .inl rfl, fun h => by simp [hs] at h,
        fun _ => .inl ⟨_, rfl⟩⟩
  · rw [fallThrough, runHandler_ok, hs] at e
    injection e with e
    subst e
    exact .inr ⟨rfl, .inl rfl, .inl rfl, .inl rfl, .inl rfl, fun h => by simp [hs] at h,
      fun _ => .inr ⟨hl, rfl⟩⟩

/-- Everything an instruction can do. -/
theorem exec_ends {i : Instr} {s t : State} (h : exec i s = .next t) : Ends i s t := by
  cases i with
  | add a b => exact ends_of_aluBinary (by simp [Instr.opcode, setsPc]) h
  | mul a b => exact ends_of_aluBinary (by simp [Instr.opcode, setsPc]) h
  | and a b => exact ends_of_aluBinary (by simp [Instr.opcode, setsPc]) h
  | or a b => exact ends_of_aluBinary (by simp [Instr.opcode, setsPc]) h
  | xor a b => exact ends_of_aluBinary (by simp [Instr.opcode, setsPc]) h
  | shl a b => exact ends_of_aluBinary (by simp [Instr.opcode, setsPc]) h
  | shr a b => exact ends_of_aluBinary (by simp [Instr.opcode, setsPc]) h
  | jmp a => exact ends_of_jump (by simp [Instr.opcode, setsPc]) rfl (.inl rfl) h
  | jeq a =>
    refine ends_of_jump (a := a) (by simp [Instr.opcode, setsPc]) rfl ?_ h
    split
    · exact .inl rfl
    · exact .inr rfl
  | jne a =>
    refine ends_of_jump (a := a) (by simp [Instr.opcode, setsPc]) rfl ?_ h
    split
    · exact .inr rfl
    · exact .inl rfl
  | ldi a b =>
    rcases runHandler_checkReg h with ⟨h8, rfl⟩ | ⟨j, rfl, e⟩
    · exact .inl ⟨_, regIndex_legal h8, rfl⟩
    · injection e with e
      subst e
      exact .inr (Completed.ofRegs (i := .ldi (regByte j) b) (by simp [Instr.opcode, setsPc]) rfl)
  | not a =>
    rcases runHandler_checkReg h with ⟨h8, rfl⟩ | ⟨j, rfl, e⟩
    · exact .inl ⟨_, regIndex_legal h8, rfl⟩
    · injection e with e
      subst e
      exact .inr (Completed.ofRegs (i := .not (regByte j)) (by simp [Instr.opcode, setsPc]) rfl)
  | prn a =>
    rcases runHandler_checkReg h with ⟨h8, rfl⟩ | ⟨j, rfl, e⟩
    · exact .inl ⟨_, regIndex_legal h8, rfl⟩
    · injection e with e
      subst e
      exact .inr (Completed.ofHandler (i := .prn (regByte j)) rfl (.inl rfl) (.inl rfl)
        (.inr ⟨rfl, j, rfl⟩) (.inl rfl) (by simp [Instr.opcode, setsPc]))
  | hlt =>
    injection h with h
    subst h
    exact .inr (Completed.ofHandler (i := .hlt) rfl (.inl rfl) (.inl rfl) (.inl rfl)
      (.inr ⟨rfl, rfl⟩) (by simp [Instr.opcode, setsPc]))
  | push a =>
    rcases runHandler_checkReg h with ⟨h8, rfl⟩ | ⟨j, rfl, h⟩
    · exact .inl ⟨_, regIndex_legal h8, rfl⟩
    rcases runHandler_check h with ⟨c, e, rfl⟩ | ⟨p, e, h⟩
    · exact .inl ⟨c, checkPush_legal e, rfl⟩
    obtain ⟨h1, rfl⟩ := checkPush_eq_ok e
    have := (s.reg 7).isLt
    dsimp only at h
    rw [memWrite_ok _ (by omega) (by omega)] at h
    injection h with h
    subst h
    exact .inr (Completed.ofHandler (i := .push (regByte j)) rfl (.inr ⟨.inl rfl, h1, _, rfl⟩)
      (.inl rfl) (.inl rfl) (.inl rfl) (by simp [Instr.opcode, setsPc]))
  | call a =>
    rcases runHandler_checkReg h with ⟨h8, rfl⟩ | ⟨j, rfl, h⟩
    · exact .inl ⟨_, regIndex_legal h8, rfl⟩
    rcases runHandler_check h with ⟨c, e, rfl⟩ | ⟨p, e, h⟩
    · exact .inl ⟨c, checkPush_legal e, rfl⟩
    obtain ⟨h1, rfl⟩ := checkPush_eq_ok e
    rcases runHandler_check h with ⟨c, e, rfl⟩ | ⟨r, er, h⟩
    · exact .inl ⟨c, checkByteAddr_legal e, rfl⟩
    have := (s.reg 7).isLt
    dsimp only at h
    rw [memWrite_ok _ (by omega) (by omega)] at h
    injection h with h
    subst h
    refine .inr (Completed.ofHandler (i := .call (regByte j)) rfl (.inr ⟨.inr rfl, h1, _, rfl⟩)
      (.inl rfl) (.inl rfl) (.inl rfl) ?_)
    rw [if_pos (by simp [Instr.opcode, setsPc])]
    exact .inl ⟨_, rfl⟩
  | pop a =>
    rcases runHandler_checkReg h with ⟨h8, rfl⟩ | ⟨j, rfl, h⟩
    · exact .inl ⟨_, regIndex_legal h8, rfl⟩
    rw [memRead_popAddr] at h
    rcases runHandler_check h with ⟨c, e, rfl⟩ | ⟨v, _, h⟩
    · exact nomatch e
    rcases runHandler_check h with ⟨c, e, rfl⟩ | ⟨t', _, h⟩
    · exact .inl ⟨c, checkByteAddr_legal e, rfl⟩
    injection h with h
    subst h
    refine .inr (Completed.ofRegs (i := .pop (regByte j)) (by simp [Instr.opcode, setsPc]) ?_)
    split <;> rfl
  | ret =>
    have h' := h
    simp only [exec, execRet] at h'
    rw [memRead_popAddr] at h'
    rcases runHandler_check h' with ⟨c, e, rfl⟩ | ⟨v, _, h'⟩
    · exact nomatch e
    rcases runHandler_check h' with ⟨c, e, rfl⟩ | ⟨t', _, h'⟩
    · exact .inl ⟨c, checkByteAddr_legal e, rfl⟩
    injection h' with h'
    subst h'
    refine .inr (Completed.ofHandler (i := .ret) rfl (.inl rfl) (.inl rfl) (.inl rfl) (.inl rfl) ?_)
    rw [if_pos (by simp [Instr.opcode, setsPc])]
    exact .inl ⟨_, rfl⟩
  | mod a b =>
    rcases runHandler_checkReg h with ⟨h8, rfl⟩ | ⟨j, rfl, h⟩
    · exact .inl ⟨_, regIndex_legal h8, rfl⟩
    rcases runHandler_checkReg h with ⟨h8, rfl⟩ | ⟨k, rfl, h⟩
    · exact .inl ⟨_, regIndex_legal h8, rfl⟩
    rcases runHandler_check h with ⟨c, e, rfl⟩ | ⟨_, _, h⟩
    · exact .inl ⟨c, checkDivisor_legal e, rfl⟩
    injection h with h
    subst h
    exact .inr (Completed.ofRegs (i := .mod (regByte j) (regByte k))
      (by simp [Instr.opcode, setsPc]) rfl)
  | cmp a b =>
    rcases runHandler_checkReg h with ⟨h8, rfl⟩ | ⟨j, rfl, h⟩
    · exact .inl ⟨_, regIndex_legal h8, rfl⟩
    rcases runHandler_checkReg h with ⟨h8, rfl⟩ | ⟨k, rfl, h⟩
    · exact .inl ⟨_, regIndex_legal h8, rfl⟩
    injection h with h
    subst h
    exact .inr (Completed.ofHandler (i := .cmp (regByte j) (regByte k)) rfl (.inl rfl)
      (.inr ⟨rfl, _, _, rfl⟩) (.inl rfl) (.inl rfl) (by simp [Instr.opcode, setsPc]))

end Sys2Proof.Machine
end

