-- ==== Sys2Proof/Laws/Fetch.lean ====
section
/-! SUPPORT. What the operand read and the fetch can answer. -/

namespace Sys2Proof.Machine

/-- Operand a as steps 4 and 5 of R110 see it: 0 where it is not read. -/
def fetchedA (s : State) (n : Nat) : Byte := if 1 ≤ n then s.mem.read (s.pc.toNat + 1) else 0

/-- Operand b as steps 4 and 5 of R110 see it: 0 where it is not read. -/
def fetchedB (s : State) (n : Nat) : Byte := if n = 2 then s.mem.read (s.pc.toNat + 2) else 0

/-- Everything the operand read can answer for a fetched opcode with a count of at most 2 (R113). -/
theorem readOperands_cases (s : State) {n : Nat} (hn : n ≤ 2) (hp : s.pc.toNat < 256) :
    (s.pc.toNat + n < 256 ∧ readOperands s n = .ok (fetchedA s n, fetchedB s n)) ∨
    (256 ≤ s.pc.toNat + n ∧ readOperands s n = .error (.memAddr 256)) := by
  have ok (k : Nat) (h : s.pc.toNat + k < 256) := memRead_succ_ok s (k := k) h
  have out (k : Nat) (h : s.pc.toNat + k = 256) :
      memRead s ((s.pc.toNat : Int) + (k : Int)) = .error (.memAddr 256) := by
    rw [memRead_out s (by omega)]
    congr 2
    omega
  have ok1 := ok 1; have ok2 := ok 2; have out1 := out 1; have out2 := out 2
  simp only [Nat.cast_one, Nat.cast_ofNat] at ok1 ok2 out1 out2
  obtain rfl | rfl | rfl : n = 0 ∨ n = 1 ∨ n = 2 := by omega
  · exact .inl ⟨by omega, rfl⟩
  · by_cases h : s.pc.toNat + 1 < 256
    · left
      refine ⟨h, ?_⟩
      simp [readOperands, fetchedA, fetchedB, ok1 h, bind, Except.bind, pure, Except.pure]
    · right
      refine ⟨by omega, ?_⟩
      simp [readOperands, out1 (by omega), bind, Except.bind]
  · by_cases h : s.pc.toNat + 2 < 256
    · left
      refine ⟨h, ?_⟩
      simp [readOperands, fetchedA, fetchedB, ok1 (by omega), ok2 h, bind, Except.bind, pure,
        Except.pure]
    · right
      refine ⟨by omega, ?_⟩
      by_cases h1 : s.pc.toNat + 1 < 256
      · simp [readOperands, ok1 h1, out2 (by omega), bind, Except.bind]
      · simp [readOperands, out1 (by omega), bind, Except.bind]

/-- Everything a fetch can answer, in the cycle's order (R110 steps 1 to 5, R207). -/
theorem fetch_cases (s : State) :
    (256 ≤ s.pc.toNat ∧ fetch s = .error (.memAddr s.pc.toNat)) ∨
    (s.pc.toNat < 256 ∧ operandCount (s.mem.read s.pc.toNat) = 3 ∧
      fetch s = .error (.decodeError (s.mem.read s.pc.toNat) s.pc)) ∨
    (s.pc.toNat < 256 ∧ operandCount (s.mem.read s.pc.toNat) ≤ 2 ∧
      256 ≤ s.pc.toNat + operandCount (s.mem.read s.pc.toNat) ∧ fetch s = .error (.memAddr 256)) ∨
    (operandCount (s.mem.read s.pc.toNat) ≤ 2 ∧
      s.pc.toNat + operandCount (s.mem.read s.pc.toNat) < 256 ∧
      fetch s = match lookup (s.mem.read s.pc.toNat)
          (fetchedA s (operandCount (s.mem.read s.pc.toNat)))
          (fetchedB s (operandCount (s.mem.read s.pc.toNat))) with
        | none => .error (.decodeError (s.mem.read s.pc.toNat) s.pc)
        | some i => .ok i) := by
  by_cases hp : s.pc.toNat < 256
  · right
    have hr := memRead_ok s hp
    have hle := operandCount_le (s.mem.read s.pc.toNat)
    by_cases h3 : operandCount (s.mem.read s.pc.toNat) = 3
    · left
      refine ⟨hp, h3, ?_⟩
      simp [fetch, hr, h3, bind, Except.bind]
    · right
      rcases readOperands_cases s (n := operandCount (s.mem.read s.pc.toNat)) (by omega) hp with
        ⟨h, e⟩ | ⟨h, e⟩
      · right
        refine ⟨by omega, h, ?_⟩
        generalize fetchedA s (operandCount (s.mem.read s.pc.toNat)) = a at e ⊢
        generalize fetchedB s (operandCount (s.mem.read s.pc.toNat)) = b at e ⊢
        cases hl : lookup (s.mem.read s.pc.toNat) a b <;>
          simp [fetch, hr, h3, e, hl, bind, Except.bind]
      · left
        refine ⟨hp, by omega, h, ?_⟩
        simp [fetch, hr, h3, e, bind, Except.bind]
  · left
    refine ⟨by omega, ?_⟩
    simp [fetch, memRead_out s (a := (s.pc.toNat : Int)) (by omega), bind, Except.bind]

/-- A fetched instruction has the opcode byte at `pc`, and all its bytes lie inside memory (R113). -/
theorem fetch_eq_ok {s : State} {i : Instr} (h : fetch s = .ok i) :
    i.opcode = s.mem.read s.pc.toNat ∧ s.pc.toNat + operandCount i.opcode < 256 := by
  rcases fetch_cases s with ⟨_, e⟩ | ⟨_, _, e⟩ | ⟨_, _, _, e⟩ | ⟨_, hp, e⟩ <;> rw [e] at h
  · exact nomatch h
  · exact nomatch h
  · exact nomatch h
  · split at h
    · exact nomatch h
    · rename_i j hj
      injection h with h
      subst h
      have ho := (lookup_eq_some hj).1
      exact ⟨ho, ho ▸ hp⟩

end Sys2Proof.Machine
end

