-- ==== Sys2Proof/Laws/PerInstr.lean ====
section
/-! SUPPORT. Statements for all instructions, one lemma per constructor. -/

namespace Sys2Proof.Laws

/-- Family Length (R80): an instruction is its opcode byte and as many operand bytes as bits 7:6 of the
opcode say, at most two. -/
def Length.Statement (i : Instr) : Prop :=
  (encode i).length = operandCount i.opcode + 1 ∧ (encode i).length ≤ 3

theorem Length.ldi (a b : Byte) : Length.Statement (.ldi a b) := by simp [Length.Statement, encode, Instr.operands, Instr.opcode, operandCount]
theorem Length.prn (a : Byte) : Length.Statement (.prn a) := by simp [Length.Statement, encode, Instr.operands, Instr.opcode, operandCount]
theorem Length.hlt : Length.Statement .hlt := by simp [Length.Statement, encode, Instr.operands, Instr.opcode, operandCount]
theorem Length.push (a : Byte) : Length.Statement (.push a) := by simp [Length.Statement, encode, Instr.operands, Instr.opcode, operandCount]
theorem Length.pop (a : Byte) : Length.Statement (.pop a) := by simp [Length.Statement, encode, Instr.operands, Instr.opcode, operandCount]
theorem Length.call (a : Byte) : Length.Statement (.call a) := by simp [Length.Statement, encode, Instr.operands, Instr.opcode, operandCount]
theorem Length.ret : Length.Statement .ret := by simp [Length.Statement, encode, Instr.operands, Instr.opcode, operandCount]
theorem Length.add (a b : Byte) : Length.Statement (.add a b) := by simp [Length.Statement, encode, Instr.operands, Instr.opcode, operandCount]
theorem Length.mul (a b : Byte) : Length.Statement (.mul a b) := by simp [Length.Statement, encode, Instr.operands, Instr.opcode, operandCount]
theorem Length.and (a b : Byte) : Length.Statement (.and a b) := by simp [Length.Statement, encode, Instr.operands, Instr.opcode, operandCount]
theorem Length.or (a b : Byte) : Length.Statement (.or a b) := by simp [Length.Statement, encode, Instr.operands, Instr.opcode, operandCount]
theorem Length.xor (a b : Byte) : Length.Statement (.xor a b) := by simp [Length.Statement, encode, Instr.operands, Instr.opcode, operandCount]
theorem Length.not (a : Byte) : Length.Statement (.not a) := by simp [Length.Statement, encode, Instr.operands, Instr.opcode, operandCount]
theorem Length.shl (a b : Byte) : Length.Statement (.shl a b) := by simp [Length.Statement, encode, Instr.operands, Instr.opcode, operandCount]
theorem Length.shr (a b : Byte) : Length.Statement (.shr a b) := by simp [Length.Statement, encode, Instr.operands, Instr.opcode, operandCount]
theorem Length.mod (a b : Byte) : Length.Statement (.mod a b) := by simp [Length.Statement, encode, Instr.operands, Instr.opcode, operandCount]
theorem Length.cmp (a b : Byte) : Length.Statement (.cmp a b) := by simp [Length.Statement, encode, Instr.operands, Instr.opcode, operandCount]
theorem Length.jmp (a : Byte) : Length.Statement (.jmp a) := by simp [Length.Statement, encode, Instr.operands, Instr.opcode, operandCount]
theorem Length.jeq (a : Byte) : Length.Statement (.jeq a) := by simp [Length.Statement, encode, Instr.operands, Instr.opcode, operandCount]
theorem Length.jne (a : Byte) : Length.Statement (.jne a) := by simp [Length.Statement, encode, Instr.operands, Instr.opcode, operandCount]

end Sys2Proof.Laws
end

