-- ==== Sys2Proof/Laws/Step.lean ====
section
/-! SUPPORT. What a fetch and a step can answer, and the run's induction, said once. -/

namespace Sys2Proof.Machine

/-- Everything a step to a next state can be: a RUNNING state, and either an error of steps 1 to 5 of
the cycle, taken, or the fetched instruction. -/
theorem step_cases {s t : State} (h : step s = .next t) :
    s.fault = none ∧ s.running = true ∧
      ((∃ c, fetch s = .error c ∧ t = s.raise c) ∨ (∃ i, fetch s = .ok i ∧ exec i s = .next t)) := by
  unfold step at h
  split at h
  · exact nomatch h
  · rename_i hf
    split at h
    · rename_i hr
      split at h
      · rename_i c hc
        injection h with h
        exact ⟨hf, hr, .inl ⟨c, hc, h.symm⟩⟩
      · rename_i i hi
        exact ⟨hf, hr, .inr ⟨i, hi, h⟩⟩
    · exact nomatch h

/-- A RUNNING state with a fetched instruction steps by it. -/
theorem step_fetched {s : State} {i : Instr} (hf : s.fault = none) (hr : s.running = true)
    (hi : fetch s = .ok i) : step s = exec i s := by
  simp [step, hf, hr, hi]

/-- A RUNNING state whose fetch raises an error takes it. -/
theorem step_fetch_error {s : State} {c : FaultCause} (hf : s.fault = none) (hr : s.running = true)
    (hc : fetch s = .error c) : step s = .next (s.raise c) := by
  simp [step, hf, hr, hc]

/-- From `pc` at most 256 a fetch raises only the causes the spec lists (R201, R204). -/
theorem fetch_error_legal {s : State} {c : FaultCause} (hp : s.pc.toNat ≤ 256)
    (h : fetch s = .error c) : FaultCause.legal c = true := by
  rcases fetch_cases s with ⟨h1, e⟩ | ⟨h1, h3, e⟩ | ⟨_, _, _, e⟩ | ⟨_, hlt, e⟩ <;> rw [e] at h
  · injection h with h
    have : s.pc.toNat = 256 := by omega
    rw [← h, this]
    rfl
  · injection h with h
    have hn : listedOpcode (s.mem.read s.pc.toNat) = false := by
      rw [← lookup_eq_none (a := 0) (b := 0)]
      cases hl : lookup (s.mem.read s.pc.toNat) 0 0 with
      | none => rfl
      | some i =>
        have ho := operandCount_opcode i
        rw [(lookup_eq_some hl).1, (lookup_eq_some hl).2, h3] at ho
        exact absurd ho (by decide)
    rw [← h]
    simp [FaultCause.legal, hn, h1]
  · injection h with h
    rw [← h]
    rfl
  · split at h
    · rename_i hn
      injection h with h
      rw [← h]
      have := lookup_eq_none.1 hn
      simp only [FaultCause.legal, this, Bool.not_false, Bool.true_and, decide_eq_true_eq]
      omega
    · exact nomatch h

/-- What holds at the start and is kept by every step holds of the state a run reaches. -/
theorem run_induction {P : State → Prop} (keep : ∀ s t, P s → step s = .next t → P t) (k : Nat)
    (s : State) (h : P s) : P (run k s) := by
  induction k generalizing s with
  | zero => exact h
  | succ k ih =>
    unfold run
    split
    · rename_i t ht
      exact ih t (keep s t h ht)
    · exact h
    · exact h

end Sys2Proof.Machine
end

