-- ==== Sys2Proof/Tests/Slice0.lean ====
section
/-! SUPPORT. The model's own tests. Expected values come from spec/: the encodings of 30_encoding.md R82
and R86, and the vectors of 95_test_vectors.md named in each comment. The witnesses at the end meet the
hypotheses of the statements, clause by clause, at the boundary values. -/

namespace Sys2Proof.Tests

open Sys2Proof.Machine

/-! ## Helpers -/

/-- The reset state with `pc`, bytes from `pc` upward, some registers and `fl` set: the start state of a
vector of 95_test_vectors.md. -/
def start (pc : Pc) (bytes : List Byte) (regs : List (Fin 8 × Byte)) (fl : Byte := 0) : State :=
  { State.reset with
    pc := pc
    fl := fl
    mem := placeBytes [] pc.toNat bytes
    x := regs.foldl (fun x p => x.set p.1 p.2) Regs.reset }

/-- A start state with one more byte in memory. -/
def State.poke (s : State) (a : Nat) (v : Byte) : State := { s with mem := s.mem.write a v }

/-- The next state, where there is one. -/
def next? : Result → Option State
  | .next t => some t
  | .fault _ => none
  | .refused _ => none

/-- Some register values and `pc` after one step. -/
def stepRegs (s : State) (is : List (Fin 8)) : Option (List Byte × Pc) :=
  (next? (step s)).map fun t => (is.map t.reg, t.pc)

/-- The cause recorded by one step, with `running` and `pc`. -/
def stepFault (s : State) : Option (Option FaultCause × Bool × Pc) :=
  (next? (step s)).map fun t => (t.fault, t.running, t.pc)

/-! ## Well-formedness: a term each check refuses -/

theorem test_wf_ldi_reg8 : (Instr.ldi 8 0).wf = false := by decide
theorem test_wf_ldi_immediate_is_free : (Instr.ldi 7 255).wf = true := by decide
theorem test_wf_prn_reg8 : (Instr.prn 8).wf = false := by decide
theorem test_wf_push_reg8 : (Instr.push 8).wf = false := by decide
theorem test_wf_pop_reg8 : (Instr.pop 8).wf = false := by decide
theorem test_wf_call_reg8 : (Instr.call 8).wf = false := by decide
theorem test_wf_not_reg255 : (Instr.not 255).wf = false := by decide
theorem test_wf_alu_operand_a :
    [Instr.add 8 0, .mul 8 0, .and 8 0, .or 8 0, .xor 8 0, .shl 8 0, .shr 8 0, .mod 8 0,
      .cmp 8 0].all (fun i => !i.wf) = true := by decide
theorem test_wf_alu_operand_b :
    [Instr.add 0 8, .mul 0 8, .and 0 8, .or 0 8, .xor 0 8, .shl 0 8, .shr 0 8, .mod 0 8,
      .cmp 0 8].all (fun i => !i.wf) = true := by decide
theorem test_wf_jumps : [Instr.jmp 8, .jeq 8, .jne 8].all (fun i => !i.wf) = true := by decide

/-! ## Decoding: the word of each row, its opcode in binary as R86 prints it -/

theorem test_decode_ldi : decode [0b10000010#8, 3, 255] = .ok (.ldi 3 255, []) := by rfl
theorem test_decode_prn : decode [0b01000111#8, 5] = .ok (.prn 5, []) := by rfl
theorem test_decode_hlt : decode [0b00000001#8] = .ok (.hlt, []) := by rfl
theorem test_decode_push : decode [0b01000101#8, 2] = .ok (.push 2, []) := by rfl
theorem test_decode_pop : decode [0b01000110#8, 2] = .ok (.pop 2, []) := by rfl
theorem test_decode_call : decode [0b01010000#8, 1] = .ok (.call 1, []) := by rfl
theorem test_decode_ret : decode [0b00010001#8] = .ok (.ret, []) := by rfl
theorem test_decode_add : decode [0b10100000#8, 0, 1] = .ok (.add 0 1, []) := by rfl
theorem test_decode_mul : decode [0b10100010#8, 0, 1] = .ok (.mul 0 1, []) := by rfl
theorem test_decode_and : decode [0b10101000#8, 0, 1] = .ok (.and 0 1, []) := by rfl
theorem test_decode_or : decode [0b10101010#8, 0, 1] = .ok (.or 0 1, []) := by rfl
theorem test_decode_xor : decode [0b10101011#8, 0, 1] = .ok (.xor 0 1, []) := by rfl
theorem test_decode_not : decode [0b01101001#8, 4] = .ok (.not 4, []) := by rfl
theorem test_decode_shl : decode [0b10101100#8, 0, 1] = .ok (.shl 0 1, []) := by rfl
theorem test_decode_shr : decode [0b10101101#8, 0, 1] = .ok (.shr 0 1, []) := by rfl
theorem test_decode_mod : decode [0b10100100#8, 6, 5] = .ok (.mod 6 5, []) := by rfl
theorem test_decode_cmp : decode [0b10100111#8, 0, 200] = .ok (.cmp 0 200, []) := by rfl
theorem test_decode_jmp : decode [0b01010100#8, 2] = .ok (.jmp 2, []) := by rfl
theorem test_decode_jeq : decode [0b01010101#8, 255] = .ok (.jeq 255, []) := by rfl
theorem test_decode_jne : decode [0b01010110#8, 2] = .ok (.jne 2, []) := by rfl

/-- Only the instruction's own bytes are taken (R113). -/
theorem test_decode_leaves_the_rest :
    decode [0b01000111#8, 0, 1, 9] = .ok (.prn 0, [1, 9]) := by rfl

/-- Rejections, each by its name (R91, R92, VA1, VA11). -/
theorem test_decode_rejects :
    decode [] = .error .noOpcode ∧ decode [0x00#8] = .error (.unlisted 0x00#8) ∧
    decode [0xC0#8] = .error (.countThree 0xC0#8) ∧
    decode [0x82#8, 0] = .error (.missingOperand 0x82#8) := ⟨rfl, rfl, rfl, rfl⟩

theorem test_decodeTableWord :
    decodeTableWord 24 0xFF0382 = some (.ldi 3 255) ∧ decodeTableWord 8 0x82 = some (.ldi 0 0) ∧
    decodeTableWord 8 0x00 = none := by decide

/-- The word a step fetches at reset is run: LDI R3, 255 (VB1). -/
theorem test_withFetchWord :
    stepRegs (State.reset.withFetchWord 24 0xFF0382) [3] = some ([255], 3) := by decide

/-! ## One step of each instruction, from 95_test_vectors.md -/

theorem test_ldi_VB2 : stepRegs (start 0 [0x82, 7, 0x80] []) [7] = some ([128], 3) := by decide
theorem test_ldi_VB4 :
    stepFault (start 0 [0x82, 8, 1] []) = some (some (.regIndex 8), false, 0) := by decide
theorem test_prn_VB7 :
    (next? (step (start 0 [0x47, 7] []))).map (fun t => (t.out, t.pc)) = some ([244], 2) := by decide
theorem test_prn_VB13 :
    stepFault (start 255 [0x47] []) = some (some (.memAddr 256), false, 255) := by decide
theorem test_hlt_VB15 :
    (next? (step (start 255 [0x01] []))).map (fun t => (t.status, t.fault, t.pc)) =
      some (.halted, none, 256) := by decide
theorem test_push_VC2 :
    (next? (step (start 0 [0x45, 7] []))).map (fun t => (t.reg 7, t.byteAt 0xF3, t.pc)) =
      some (243, 243, 2) := by decide
theorem test_push_VC3 :
    stepFault (start 0 [0x45, 0] [(0, 5), (7, 0)]) = some (some (.memAddr (-1)), false, 0) := by decide
theorem test_pop_VC9 :
    stepRegs (State.poke (start 0 [0x46, 7] [(7, 243)]) 0xF3 80) [7] = some ([81], 2) := by decide
theorem test_pop_VC11 :
    stepFault (State.poke (start 0 [0x46, 0] [(7, 255)]) 0xFF 7) =
      some (some (.memAddr 256), false, 0) := by decide
theorem test_call_VD2 :
    (next? (step (start 6 [0x50, 7] []))).map (fun t => (t.reg 7, t.byteAt 0xF3, t.pc)) =
      some (243, 8, 243) := by decide
theorem test_call_VD4 :
    stepFault (start 254 [0x50, 1] [(1, 32)]) = some (some (.memAddr 256), false, 254) := by decide
theorem test_ret_VD9 :
    stepRegs (State.poke (start 32 [0x11] [(7, 243)]) 0xF3 8) [7] = some ([244], 8) := by decide
theorem test_ret_VD11 :
    stepFault (State.poke (start 32 [0x11] [(7, 255)]) 0xFF 8) =
      some (some (.memAddr 256), false, 32) := by decide
theorem test_add_VE1 :
    stepRegs (start 0 [0xA0, 0, 1] [(0, 200), (1, 100)]) [0, 1] = some ([44, 100], 3) := by decide
theorem test_add_VE72 :
    stepFault (start 0 [0xA0, 9, 10] []) = some (some (.regIndex 9), false, 0) := by decide
theorem test_mul_VE9 :
    stepRegs (start 0 [0xA2, 0, 1] [(0, 100), (1, 3)]) [0, 1] = some ([44, 3], 3) := by decide
theorem test_and_VE12 :
    stepRegs (start 0 [0xA8, 0, 1] [(0, 204), (1, 170)]) [0] = some ([136], 3) := by decide
theorem test_or_VE15 :
    stepRegs (start 0 [0xAA, 0, 1] [(0, 204), (1, 170)]) [0] = some ([238], 3) := by decide
theorem test_xor_VE18 :
    stepRegs (start 0 [0xAB, 0, 1] [(0, 204), (1, 170)]) [0] = some ([102], 3) := by decide
theorem test_not_VE45 : stepRegs (start 0 [0x69, 0] [(0, 15)]) [0] = some ([240], 2) := by decide
theorem test_shl_VE23 :
    stepRegs (start 0 [0xAC, 0, 1] [(0, 3), (1, 7)]) [0, 1] = some ([128, 7], 3) := by decide
theorem test_shl_VE26 :
    stepRegs (start 0 [0xAC, 0, 1] [(0, 1), (1, 255)]) [0] = some ([0], 3) := by decide
theorem test_shr_VE28 :
    stepRegs (start 0 [0xAD, 0, 1] [(0, 144), (1, 4)]) [0] = some ([9], 3) := by decide
theorem test_shr_VE31 :
    stepRegs (start 0 [0xAD, 0, 1] [(0, 255), (1, 8)]) [0] = some ([0], 3) := by decide
theorem test_mod_VE36 :
    stepRegs (start 0 [0xA4, 0, 1] [(0, 255), (1, 16)]) [0] = some ([15], 3) := by decide
theorem test_mod_VE41 :
    stepFault (start 0 [0xA4, 0, 1] [(0, 7)]) = some (some (.divZero 0 1), false, 0) := by decide
theorem test_cmp_VE53 :
    (next? (step (start 0 [0xA7, 0, 1] [(0, 128), (1, 127)]))).map (fun t => (t.fl, t.pc)) =
      some (0b010, 3) := by decide
theorem test_cmp_VE67 :
    (next? (step (start 0 [0xA7, 0, 1] [(0, 3), (1, 5)] 0b011))).map (fun t => (t.fl, t.pc)) =
      some (0b111, 3) := by decide
theorem test_jmp_VF4 : stepRegs (start 4 [0x54, 7] []) [] = some ([], 244) := by decide
theorem test_jmp_VF6 : stepRegs (start 254 [0x54, 0] []) [] = some ([], 0) := by decide
theorem test_jeq_VF27 :
    stepFault (start 8 [0x55, 0xFF] [] 0b001) = some (some (.regIndex 255), false, 8) := by decide
theorem test_jeq_VF30 : stepRegs (start 254 [0x55, 0] []) [] = some ([], 256) := by decide
theorem test_jne_VF22 : stepRegs (start 8 [0x56, 0] [(0, 16)] 0b100) [] = some ([], 16) := by decide
theorem test_jne_VF29 : stepRegs (start 8 [0x56, 8] [] 0b001) [] = some ([], 10) := by decide

/-! ## The cycle's own errors -/

theorem test_decode_error_VA1 :
    stepFault (start 64 [0x00] []) = some (some (.decodeError 0x00 64), false, 64) := by decide
theorem test_decode_error_VA21 :
    stepFault (start 255 [0xC0] []) = some (some (.decodeError 0xC0 255), false, 255) := by decide
theorem test_operand_address_VA19 :
    stepFault (start 254 [0x83] []) = some (some (.memAddr 256), false, 254) := by decide
theorem test_fetch_address_VA23 :
    stepFault (start 256 [] []) = some (some (.memAddr 256), false, 256) := by decide

/-! ## Memory, load and the terminal states -/

theorem test_memory_write_removes_a_reset_byte :
    Memory.write [(3, 1), (9, 2)] 3 0 = [(9, 2)] ∧ Memory.write [(3, 1), (9, 2)] 5 7 =
      [(3, 1), (5, 7), (9, 2)] := by decide
theorem test_loadImage_too_long : loadImage (List.replicate 257 0x01#8) = none :=
  if_pos (by rw [List.length_replicate]; decide)
theorem test_halted_takes_no_step :
    step (start 0 [0x01] []).stop = .fault .halted := by rfl
theorem test_faulted_takes_no_step :
    step ((start 0 [0x01] []).raise (.memAddr 256)) = .fault (.faulted (.memAddr 256)) := by rfl

/-! ## Witnesses: states and operands that meet the hypotheses of the statements -/

theorem test_witness_LoadedImageStandsFromAddressZero :
    (List.replicate 256 0x01#8).length ≤ 256 ∧ 256 < (List.replicate 257 0x01#8).length ∧
      (loadImage (List.replicate 3 0x01#8)).isSome = true :=
  ⟨List.length_replicate.le, by rw [List.length_replicate]; decide, by decide⟩

theorem test_witness_DecodedBytesAreTheEncoding :
    decode [0xA0#8, 0, 255, 7] = .ok (.add 0 255, [7]) := by rfl

theorem test_witness_StepRunsTheDecodedInstruction :
    (start 253 [0x82, 1, 5] []).isRunning ∧
      decode (codeBytes (start 253 [0x82, 1, 5] [])) = .ok (.ldi 1 5, []) := ⟨by decide, rfl⟩

theorem test_witness_StepRunsTheInstructionAtPc :
    (start 255 [0x01] []).isRunning ∧ (start 255 [0x01] []).holdsAtPc .hlt := by
  refine ⟨by decide, by decide, ?_⟩
  decide

theorem test_witness_FetchPastMemoryRaisesMemAddr :
    (start 256 [] []).isRunning ∧ (start 256 [] []).pc = 256#9 := by decide

theorem test_witness_OperandPastMemoryRaisesMemAddr :
    (start 255 [0x47] []).isRunning ∧ operandCount (start 255 [0x47] []).opcodeAtPc = 1 ∧
    (start 255 [0x83] []).isRunning ∧ operandCount (start 255 [0x83] []).opcodeAtPc = 2 ∧
    (start 254 [0x83] []).isRunning ∧ operandCount (start 254 [0x83] []).opcodeAtPc = 2 := by decide

theorem test_witness_CountThreeRaisesDecodeError :
    (start 255 [0xC0] []).isRunning ∧ (start 255 [0xC0] []).pc.toNat < 256 ∧
      operandCount (start 255 [0xC0] []).opcodeAtPc = 3 ∧ operandCount 0xFF#8 = 3 := by decide

theorem test_witness_UnlistedOpcodeRaisesDecodeError :
    let s := start 255 [0x00] []; let u := start 254 [0x48] []; let v := start 255 [0xFF] []
    (s.isRunning ∧ s.pc.toNat + operandCount s.opcodeAtPc ≤ 255) ∧
    (u.isRunning ∧ u.pc.toNat + operandCount u.opcodeAtPc ≤ 255) ∧
    (v.isRunning ∧ operandCount v.opcodeAtPc = 3) ∧
    s.opcodeAtPc = 0x00#8 ∧ u.opcodeAtPc = 0x48#8 ∧ v.opcodeAtPc = 0xFF#8 := by decide

theorem test_witness_RunningEngineAlwaysSteps : State.reset.isRunning := by decide

theorem test_witness_StatusesAndTheirTerminality :
    State.reset.running = true ∧ State.reset.fault = none ∧
    State.reset.stop.status ≠ .running ∧ State.reset.stop.fault = none ∧
    (State.reset.raise (.memAddr 256)).fault ≠ none ∧
    (State.reset.raise (.memAddr 256)).running = false ∧ (loadImage [0x01#8]).isSome = true := by decide

theorem test_witness_ErrorsArePrecise :
    ∃ t, step (start 0 [0xA4, 0, 1] [(0, 7)]) = .next t ∧ t.fault = some (.divZero 0 1) :=
  ⟨_, rfl, by decide⟩

theorem test_witness_RecordedCausesAreTheListedOnes :
    (start 256 [] []).Inv ∧ ∃ t, step (start 256 [] []) = .next t ∧ t.fault = some (.memAddr 256) :=
  ⟨by decide, _, rfl, by decide⟩

theorem test_witness_SequentialAdvanceIsExact :
    (start 255 [0x01] []).Inv ∧ setsPc (start 255 [0x01] []).opcodeAtPc = false ∧
      ∃ t, step (start 255 [0x01] []) = .next t ∧ t.fault = none :=
  ⟨by decide, by decide, _, rfl, by decide⟩

theorem test_witness_ResetAndLoadedStatesMeetTheInvariant :
    ∃ s, loadImage [0x82#8, 0, 8] = some s := ⟨_, rfl⟩

theorem test_witness_StepKeepsTheInvariant :
    (start 4 [0x45, 0] [(0, 9)]).Inv ∧ ∃ t, step (start 4 [0x45, 0] [(0, 9)]) = .next t :=
  ⟨by decide, _, rfl⟩

theorem test_witness_OnlyCompareSetsFlagsAndNothingClearsThem :
    ∃ t, step (start 0 [0xA7, 0, 1] [] 0b100) = .next t ∧ t.fl ≠ (start 0 [] [] 0b100).fl :=
  ⟨_, rfl, by decide⟩

theorem test_witness_EqualFlagStaysSetForTheRun :
    (start 0 [0xA7, 0, 1] [(0, 3)] 0b001).fl.getLsbD 0 = true := by decide

theorem test_witness_OnlyPrnEmits :
    ∃ t, step (start 0 [0x47, 7] []) = .next t ∧ t.out = [244] := ⟨_, rfl, by decide⟩

theorem test_witness_OnlyPushAndCallWriteMemory :
    ∃ t, step (start 0 [0x45, 7] []) = .next t ∧ t.mem ≠ (start 0 [0x45, 7] []).mem :=
  ⟨_, rfl, by decide⟩

theorem test_witness_RunningIsClearedOnlyByHltOrError :
    ∃ t, step (start 5 [0x01] []) = .next t ∧ t.running = false := ⟨_, rfl, by decide⟩

/-- A PUSH at 8 with the stack pointer at 11 writes address 10, the next opcode (compare program P8). -/
theorem test_witness_PushedByteIsFetchedNext :
    let s := start 8 [0x45, 0] [(0, 1), (7, 11)]
    s.Inv ∧ s.isRunning ∧ s.pc.toNat + 3 = (s.reg 7).toNat ∧ s.reg 0 = 0x01#8 ∧
      operandCount 0x01#8 = 0 ∧ lookup 0x01#8 0 0 = some .hlt ∧
      (next? (exec (.push (regByte 0)) s)).isSome = true := by decide

theorem test_witness_LdiThenPrnEmitsTheImmediate :
    let s := start 0 [0x82, 3, 255, 0x47, 3] []
    s.isRunning ∧ s.holdsAtPc (.ldi (regByte 3) 255) ∧
      ({ s with pc := s.pc + 3#9 } : State).holdsAtPc (.prn (regByte 3)) := by
  refine ⟨by decide, ⟨by decide, ?_⟩, by decide, ?_⟩ <;> decide

/-- REG_INDEX clauses: 8 and 255 are above 7, 7 is not. -/
theorem test_witness_register_index_clauses :
    8 ≤ (8 : Byte).toNat ∧ 8 ≤ (255 : Byte).toNat ∧ (7 : Byte).toNat < 8 ∧ regByte 7 = 7 := by decide

/-- Stack pointer clauses of PUSH, CALL and the round trip: 0 and 1. -/
theorem test_witness_push_clauses :
    ((start 0 [] [(7, 0)]).reg 7).toNat = 0 ∧ 1 ≤ ((start 0 [] [(7, 1)]).reg 7).toNat ∧
      (start 0 [] [(7, 1)]).mem.wf = true := by decide

/-- Stack pointer clauses of POP and RET: 255 and 254; and a top of stack of 255 and of 254. -/
theorem test_witness_pop_clauses :
    ((start 0 [] [(7, 255)]).reg 7).toNat = 255 ∧ ((start 0 [] [(7, 254)]).reg 7).toNat < 255 ∧
    ((State.poke (start 0 [] []) 244 255).byteAt 244).toNat = 255 ∧
    ((State.poke (start 0 [] []) 244 254).byteAt 244).toNat < 255 ∧
    (State.reset.reg 7).toNat = 244 := by decide

/-- CALL's `pc` clauses: 254 faults, 253 does not. -/
theorem test_witness_call_clauses :
    254 ≤ (start 254 [] []).pc.toNat ∧ (start 253 [] []).pc.toNat < 254 ∧
      1 ≤ ((start 253 [] []).reg 7).toNat ∧ (start 253 [] []).mem.wf = true := by decide

/-- The call-return law: the state the CALL itself left is one that RET may start from. -/
theorem test_witness_CallThenRetReturns :
    ∃ t, exec (.call (regByte 1)) (start 6 [] [(1, 32)]) = .next t ∧
      (next? (exec .ret t)).map (fun v => (v.pc, v.reg 7)) = some (8, 244) := ⟨_, rfl, by decide⟩

/-- MOD's divisor clauses and CMP's three order clauses. -/
theorem test_witness_mod_and_cmp_clauses :
    let s := start 0 [] [(0, 128), (1, 127), (2, 127)]
    (s.reg 3).toNat = 0 ∧ 0 < (s.reg 1).toNat ∧ (s.reg 1).toNat = (s.reg 2).toNat ∧
      (s.reg 0).toNat > (s.reg 1).toNat ∧ (s.reg 1).toNat < (s.reg 0).toNat := by decide

theorem test_witness_shift_clauses : 8 ≤ (8 : Byte).toNat ∧ 8 ≤ (255 : Byte).toNat := by decide

theorem test_witness_jump_clauses :
    (start 0 [] [] 0b001).fl.getLsbD 0 = true ∧ (start 0 [] [] 0b110).fl.getLsbD 0 = false := by decide

theorem test_witness_HltClearsRunning :
    (start 5 [0x01] []).isRunning ∧ ∃ t, exec .hlt (start 5 [0x01] []) = .next t := ⟨by decide, _, rfl⟩

theorem test_witness_SameRegisterTwice :
    0 < ((start 0 [] [(0, 6)]).reg 0).toNat ∧ (start 0 [] []).reg 0 = 0x00#8 := by decide

theorem test_witness_RegisterWritersFrame :
    ∃ t, exec (.add 0 1) (start 0 [] [(0, 200), (1, 100)]) = .next t ∧ t.reg 0 = 44 :=
  ⟨_, rfl, by decide⟩

theorem test_witness_NonWritersFrame :
    (∃ t, exec (.cmp 0 1) (start 0 [] [(0, 5)]) = .next t ∧ t.fl = 0b010#8) ∧
      ∃ t, exec .hlt (start 0 [] []) = .next t ∧ t.running = false :=
  ⟨⟨_, rfl, by decide⟩, ⟨_, rfl, by decide⟩⟩

theorem test_witness_PoppersFrame :
    (∃ t, exec (.pop 1) (start 0 [] []) = .next t ∧ t.reg 7 = 245) ∧
      ∃ t, exec .ret (start 0 [] []) = .next t ∧ t.reg 7 = 245 :=
  ⟨⟨_, rfl, by decide⟩, _, rfl, by decide⟩

theorem test_witness_PushersFrame :
    (∃ t, exec (.push 0) (start 0 [] [(0, 42)]) = .next t) ∧
      (∃ t, exec (.call 1) (start 6 [] [(1, 32)]) = .next t) ∧
      pushAddr (start 0 [] []) = 243 ∧ pushAddr (start 0 [] [(7, 0)]) < 0 :=
  ⟨⟨_, rfl⟩, ⟨_, rfl⟩, by decide, by decide⟩

theorem test_witness_PushersStoreTheirByte :
    let s := start 253 [] [(0, 42), (7, 1)]
    s.mem.wf = true ∧ pushAddr s = ((0 : Nat) : Int) ∧ s.pc.toNat < 254 ∧
      (next? (exec (.push (regByte 0)) s)).isSome = true ∧
      (next? (exec (.call (regByte 0)) s)).isSome = true := by decide

theorem test_witness_MemoryPrimitivesCheckTheRange :
    ((-1 : Int) < 0 ∨ 255 < (-1 : Int)) ∧ ((256 : Int) < 0 ∨ 255 < (256 : Int)) ∧
      State.reset.mem.wf = true ∧ (255 : Nat) < 256 := by decide

theorem test_witness_LoadedRunsStayInRange :
    ∃ s, loadImage [0x82#8, 0, 0, 0x54, 0] = some s := ⟨_, rfl⟩

end Sys2Proof.Tests
end

/-! PROOFS. The statements of 10_state.md: the invariant and its run, the statuses, which opcode can
change which piece of state, and the frames of the instructions that neither push nor pop. -/

namespace Sys2Proof

/-- The bytes that name the registers an instruction can write, the stack pointer of the stack
instructions among them (R22). -/
def Instr.writtenRegs : Instr → List Byte
  | .ldi a _ => [a]
  | .prn _ => []
  | .hlt => []
  | .push _ => [7]
  | .pop a => [a, 7]
  | .call _ => [7]
  | .ret => [7]
  | .add a _ => [a]
  | .mul a _ => [a]
  | .and a _ => [a]
  | .or a _ => [a]
  | .xor a _ => [a]
  | .not a => [a]
  | .shl a _ => [a]
  | .shr a _ => [a]
  | .mod a _ => [a]
  | .cmp _ _ => []
  | .jmp _ => []
  | .jeq _ => []
  | .jne _ => []

end Sys2Proof

namespace Sys2Proof.Machine

/-! ### The invariant -/

/-- Taking an error touches nothing the invariant bounds, and clears `running` with the record. -/
theorem inv_raise {s : State} (hs : s.Inv) (c : FaultCause) : (s.raise c).Inv := by
  obtain ⟨hmem, hpc, hfl, -⟩ := hs
  exact ⟨hmem, hpc, hfl, .inr rfl⟩

/-- An instruction that ends inside memory leaves `pc` at 256 or below: its bytes fit, or its target is a
byte (R26, R29). -/
theorem Completed.pc_le {i : Instr} {s t : State} (hc : Completed i s t)
    (hp : s.pc.toNat + operandCount i.opcode < 256) : t.pc.toNat ≤ 256 := by
  cases hset : setsPc i.opcode with
  | false =>
    rw [hc.pcSequential hset, BitVec.toNat_add, BitVec.toNat_ofNat]
    omega
  | true =>
    rcases hc.pcSet hset with ⟨v, ht⟩ | ⟨hlen, ht⟩
    · have := v.isLt
      rw [ht, target_toNat]
      omega
    · rw [operandCount_opcode, hlen] at hp
      rw [ht, BitVec.toNat_add, show (2#9).toNat = 2 from rfl]
      omega

/-- A completed instruction whose bytes lie inside memory keeps the invariant. -/
theorem Completed.inv {i : Instr} {s t : State} (hc : Completed i s t) (hs : s.Inv)
    (hr : s.fault = none) (hp : s.pc.toNat + operandCount i.opcode < 256) : t.Inv := by
  obtain ⟨hmem, -, hfl, -⟩ := hs
  refine ⟨?_, hc.pc_le hp, ?_, .inl (hc.fault.trans hr)⟩
  · rcases hc.mem with e | ⟨-, -, v, e⟩ <;> rw [e]
    · exact hmem
    · have := (s.reg 7).isLt
      exact Memory.wf_write hmem (by omega) v
  · rcases hc.fl with e | ⟨-, p, q, e⟩ <;> rw [e]
    · exact hfl
    · exact orFlags_compare_lt s p q hfl

theorem step_inv {s t : State} (hs : s.Inv) (h : step s = .next t) : t.Inv := by
  obtain ⟨hfault, -, ⟨c, -, rfl⟩ | ⟨i, hi, he⟩⟩ := step_cases h
  · exact inv_raise hs c
  · rcases exec_ends he with ⟨c, -, rfl⟩ | hc
    · exact inv_raise hs c
    · exact hc.inv hs hfault (fetch_eq_ok hi).2

theorem reset_inv : State.reset.Inv := by decide

/-- The load writes memory only, and only cells that exist (R244). -/
theorem loadImage_inv {image : List Byte} {s : State} (h : loadImage image = some s) : s.Inv := by
  obtain ⟨hmem, hpc, hfl, hctl⟩ := reset_inv
  unfold loadImage at h
  split at h
  · exact nomatch h
  · injection h with h
    subst h
    exact ⟨placeBytes_wf hmem 0 image, hpc, hfl, hctl⟩

theorem run_inv (k : Nat) {s : State} (hs : s.Inv) : (run k s).Inv :=
  run_induction (P := State.Inv) (fun _ _ => step_inv) k s hs

/-- Settles O21. A step takes an error, which moves nothing the invariant bounds, or completes a fetched
instruction, whose bytes lie inside memory. -/
theorem stepKeepsTheInvariant : Obligations.StepKeepsTheInvariant := fun _ _ => step_inv

/-- Settles O20: the load places bytes in a canonical memory and touches nothing else. -/
theorem resetAndLoadedStatesMeetTheInvariant : Obligations.ResetAndLoadedStatesMeetTheInvariant :=
  ⟨reset_inv, fun _ _ => loadImage_inv⟩

/-- Settles O1: every entry of the reset table by evaluation; memory is the empty list, so each address
reads as unlisted. -/
theorem resetHoldsTheTableValues : Obligations.ResetHoldsTheTableValues :=
  ⟨fun a _ => Memory.read_nil a, by decide, rfl, rfl, rfl, rfl, rfl, rfl⟩

/-! ### The statuses -/

theorem status_running {s : State} (hr : s.running = true) (hf : s.fault = none) :
    s.status = .running := by
  simp [State.status, hr, hf]

theorem status_halted {s : State} (hr : s.running = false) (hf : s.fault = none) :
    s.status = .halted := by
  simp [State.status, hr, hf]

theorem status_faulted {s : State} {c : FaultCause} (hf : s.fault = some c) :
    s.status = .faulted := by
  simp [State.status, hf]

/-- Settles O16: only a RUNNING state has a step, and `running` with a fault recorded contradicts the
invariant, which the run of a loaded image keeps. -/
theorem statusesAndTheirTerminality : Obligations.StatusesAndTheirTerminality := by
  refine ⟨fun _ => status_running, fun _ => status_halted, fun s _ hf => ?_, fun s t hs h => ?_,
    fun image s k hl hk => ?_⟩
  · obtain ⟨c, hc⟩ := Option.ne_none_iff_exists'.1 hf
    exact status_faulted hc
  · obtain ⟨hfault, hrunning, -⟩ := step_cases h
    exact hs (status_running hrunning hfault)
  · obtain ⟨hrunning, hfault⟩ := hk
    obtain ⟨-, -, -, hnone | hclear⟩ := run_inv k (loadImage_inv hl)
    · exact hfault hnone
    · rw [hrunning] at hclear
      exact nomatch hclear

/-! ### Which opcode can change which piece of state -/

/-- What a cycle with the opcode byte `op` can have done to memory, the flags, the output and the control
state, whether it completed or took an error. -/
structure CycleFrame (op : Byte) (s t : State) : Prop where
  mem : t.mem = s.mem ∨ ((op = 0x45#8 ∨ op = 0x50#8) ∧
    ∀ a : Nat, (a : Int) ≠ pushAddr s → t.byteAt a = s.byteAt a)
  fl : t.fl = s.fl ∨ (op = 0xA7#8 ∧ ∃ p q, t.fl = s.fl ||| compareMask p q)
  out : t.out = s.out ∨ (op = 0x47#8 ∧ ∃ i : Fin 8, t.out = s.out ++ [s.reg i])
  control : s.sameControlOrError t ∨ (op = 0x01#8 ∧ t.running = false ∧ t.fault = s.fault)

/-- An error changes the control state alone (R210). -/
theorem cycleFrame_raise (op : Byte) (s : State) (c : FaultCause) : CycleFrame op s (s.raise c) :=
  ⟨.inl rfl, .inl rfl, .inl rfl, .inl (.inr ⟨rfl, rfl⟩)⟩

theorem Completed.cycleFrame {i : Instr} {s t : State} (hc : Completed i s t) :
    CycleFrame i.opcode s t where
  mem := by
    refine hc.mem.imp_right fun ⟨hop, h1, v, e⟩ => ⟨hop, fun a ha => ?_⟩
    have hne : a ≠ (s.reg 7).toNat - 1 := by
      simp only [pushAddr, State.sp_eq] at ha
      omega
    rw [State.byteAt, e]
    exact Memory.read_write_ne s.mem v hne
  fl := hc.fl
  out := hc.out
  control := by
    rcases hc.running with hr | ⟨hop, hr⟩
    · exact .inl (.inl ⟨hr, hc.fault⟩)
    · exact .inr ⟨hop, hr, hc.fault⟩

theorem exec_cycleFrame {i : Instr} {s t : State} (h : exec i s = .next t) :
    CycleFrame i.opcode s t := by
  rcases exec_ends h with ⟨c, -, rfl⟩ | hc
  · exact cycleFrame_raise _ s c
  · exact hc.cycleFrame

/-- A step is framed by the opcode byte at `pc`: it takes a fetch error, or runs the instruction with that
opcode. -/
theorem step_cycleFrame {s t : State} (h : step s = .next t) : CycleFrame s.opcodeAtPc s t := by
  obtain ⟨-, -, ⟨c, -, rfl⟩ | ⟨i, hi, he⟩⟩ := step_cases h
  · exact cycleFrame_raise _ s c
  · have hop : i.opcode = s.opcodeAtPc := (fetch_eq_ok hi).1
    exact hop ▸ exec_cycleFrame he

namespace CycleFrame

variable {op : Byte} {s t : State}

theorem fl_eq (hf : CycleFrame op s t) (hop : op ≠ 0xA7#8) : t.fl = s.fl :=
  hf.fl.resolve_right fun h => hop h.1

theorem out_eq (hf : CycleFrame op s t) (hop : op ≠ 0x47#8) : t.out = s.out :=
  hf.out.resolve_right fun h => hop h.1

theorem sameMemory (hf : CycleFrame op s t) (hpush : op ≠ 0x45#8) (hcall : op ≠ 0x50#8) :
    s.sameMemory t := by
  have hmem : t.mem = s.mem := hf.mem.resolve_right fun h => h.1.elim hpush hcall
  exact fun a => congrArg (Memory.read · a) hmem

theorem sameControlOrError (hf : CycleFrame op s t) (hop : op ≠ 0x01#8) : s.sameControlOrError t :=
  hf.control.resolve_right fun h => hop h.1

/-- A flag bit that is set stays set: the one change is an OR (R31). -/
theorem fl_keeps (hf : CycleFrame op s t) {k : Nat} (hk : s.fl.getLsbD k = true) :
    t.fl.getLsbD k = true := by
  rcases hf.fl with e | ⟨-, p, q, e⟩ <;> rw [e]
  · exact hk
  · exact orFlags_keeps s _ hk

end CycleFrame

/-- A compare mask has no bit in 7:3 (R30, R170). -/
theorem compareMask_high (p q : Byte) {k : Nat} (hk : 3 ≤ k) :
    (compareMask p q).getLsbD k = false := by
  have hlt : (compareMask p q).toNat < 2 ^ k :=
    calc (compareMask p q).toNat < 2 ^ 3 := by
          rcases compareMask_cases p q with e | e | e <;> rw [e] <;> decide
      _ ≤ 2 ^ k := Nat.pow_le_pow_right (by decide) hk
  exact Nat.testBit_lt_two_pow hlt

theorem CycleFrame.fl_high {op : Byte} {s t : State} (hf : CycleFrame op s t) {k : Nat} (hk : 3 ≤ k) :
    t.fl.getLsbD k = s.fl.getLsbD k := by
  rcases hf.fl with e | ⟨-, p, q, e⟩ <;> rw [e]
  rw [BitVec.getLsbD_or, compareMask_high p q hk, Bool.or_false]

/-- Settles O23: a step leaves `fl`, or is a CMP and ORs a mask in. -/
theorem onlyCompareSetsFlagsAndNothingClearsThem :
    Obligations.OnlyCompareSetsFlagsAndNothingClearsThem := by
  intro s t h
  have hf := step_cycleFrame h
  exact ⟨fun _ => hf.fl_keeps, fun hne => (hf.fl.resolve_left hne).1⟩

/-- Settles O25, by the frame of a step. -/
theorem onlyPrnEmits : Obligations.OnlyPrnEmits := fun _ _ h => (step_cycleFrame h).out

/-- Settles O26, by the frame of a step. -/
theorem onlyPushAndCallWriteMemory : Obligations.OnlyPushAndCallWriteMemory :=
  fun _ _ h => (step_cycleFrame h).mem

/-- Settles O27: a step starts with `running` set and no fault, so a step that keeps the control state
does not clear `running`. -/
theorem runningIsClearedOnlyByHltOrError : Obligations.RunningIsClearedOnlyByHltOrError := by
  intro s t h hclear
  obtain ⟨hfault, hrunning, -⟩ := step_cases h
  rcases (step_cycleFrame h).control with (⟨hr, -⟩ | ⟨-, hsome⟩) | ⟨hop, -, hf⟩
  · rw [hclear, hrunning] at hr
    exact nomatch hr
  · exact .inr (Option.isSome_iff_ne_none.1 hsome)
  · exact .inl ⟨hop, hf.trans hfault⟩

/-! ### Which registers an instruction can write -/

/-- One more write, to a register the list names. -/
theorem sameRegsExcept_setReg {s u : State} {L : List Byte} {i : Fin 8} (h : s.sameRegsExcept u L)
    (hi : regByte i ∈ L) (v : Byte) : s.sameRegsExcept (u.setReg i v) L := by
  intro j hj
  have hne : j ≠ i := fun e => hj (e ▸ hi)
  rw [State.setReg_reg_ne u hne]
  exact h j hj

theorem sameRegsExcept_setPc {s u : State} {L : List Byte} (h : s.sameRegsExcept u L) (p : Pc) :
    s.sameRegsExcept (u.setPc p) L := h

theorem memWrite_x {s u : State} {a : Int} {v : Byte} (h : memWrite s a v = .ok u) : u.x = s.x := by
  unfold memWrite at h
  split at h
  · exact nomatch h
  · injection h with h
    exact h ▸ rfl

/-- A handler that, where it completes, leaves every register outside `L` as it is in `s`. -/
def KeepsRegs (s : State) (L : List Byte) (h : Except FaultCause State) : Prop :=
  ∀ u, h = .ok u → s.sameRegsExcept u L

theorem keepsRegs_ok {s u : State} {L : List Byte} (h : s.sameRegsExcept u L) :
    KeepsRegs s L (.ok u) := by
  intro u' e
  injection e with e
  exact e ▸ h

theorem keepsRegs_bind {α : Type} {s : State} {L : List Byte} {e : Except FaultCause α}
    {f : α → Except FaultCause State} (h : ∀ v, e = .ok v → KeepsRegs s L (f v)) :
    KeepsRegs s L (e >>= f) := by
  cases e with
  | error c => exact fun _ hu => nomatch hu
  | ok v => exact h v rfl

/-- A handler that begins with `checkreg(a)` goes on with the register that `a` names. -/
theorem keepsRegs_checkReg {s : State} {L : List Byte} {a : Byte}
    {f : Fin 8 → Except FaultCause State} (h : ∀ i, a = regByte i → KeepsRegs s L (f i)) :
    KeepsRegs s L (checkReg a >>= f) :=
  keepsRegs_bind fun i hi => h i (checkReg_eq_ok.1 hi)

/-- A handler that ends by writing the register that `a` names. -/
theorem keepsRegs_setReg {s : State} {a : Byte} {i : Fin 8} (hi : a = regByte i) (v : Byte) :
    KeepsRegs s [a] (.ok (s.setReg i v)) :=
  keepsRegs_ok (sameRegsExcept_setReg (fun _ _ => rfl) (by simp [hi]) v)

theorem keepsRegs_aluBinary (f : Byte → Byte → Byte) (a b : Byte) (s : State) :
    KeepsRegs s [a] (aluBinary f a b s) :=
  keepsRegs_checkReg fun _ hi => keepsRegs_checkReg fun _ _ => keepsRegs_setReg hi _

theorem keepsRegs_jumpTo (a : Byte) (s : State) : KeepsRegs s [] (jumpTo a s) :=
  keepsRegs_checkReg fun _ _ => keepsRegs_ok fun _ _ => rfl

theorem keepsRegs_fallThrough (s : State) : KeepsRegs s [] (fallThrough s) :=
  keepsRegs_ok fun _ _ => rfl

/-- A write of the stack pointer and then of memory: the shape of the pushes. -/
theorem sameRegsExcept_pushWrite {s u : State} {p : Int} {sp v : Byte}
    (h : memWrite (s.setSp sp) p v = .ok u) : s.sameRegsExcept u [7] := by
  have hx : u.x = (s.setReg 7 sp).x := memWrite_x h
  intro j hj
  rw [State.reg, hx]
  exact sameRegsExcept_setReg (fun _ _ => rfl) (by decide) sp j hj

/-- The cycle around a handler writes no register (R110 steps 6 and 7, R210). -/
theorem runHandler_sameRegsExcept {ir : Byte} {s t : State} {L : List Byte}
    {h : Except FaultCause State} (e : runHandler ir s h = .next t) (hk : KeepsRegs s L h) :
    s.sameRegsExcept t L := by
  rcases runHandler_cases e with ⟨c, -, rfl⟩ | ⟨u, hu, rfl⟩
  · exact fun _ _ => rfl
  · split
    · exact hk u hu
    · exact hk u hu

/-- HLT as a whole (R132). -/
theorem exec_hlt (s : State) : exec .hlt s = .next (s.stop.advance 0) := rfl

/-- An instruction leaves every register alone but those it writes. -/
theorem exec_sameRegsExcept {i : Instr} {s t : State} (h : exec i s = .next t) :
    s.sameRegsExcept t i.writtenRegs := by
  cases i with
  | add a b => exact runHandler_sameRegsExcept h (keepsRegs_aluBinary aluAdd a b s)
  | mul a b => exact runHandler_sameRegsExcept h (keepsRegs_aluBinary aluMul a b s)
  | and a b => exact runHandler_sameRegsExcept h (keepsRegs_aluBinary aluAnd a b s)
  | or a b => exact runHandler_sameRegsExcept h (keepsRegs_aluBinary aluOr a b s)
  | xor a b => exact runHandler_sameRegsExcept h (keepsRegs_aluBinary aluXor a b s)
  | shl a b => exact runHandler_sameRegsExcept h (keepsRegs_aluBinary aluShl a b s)
  | shr a b => exact runHandler_sameRegsExcept h (keepsRegs_aluBinary aluShr a b s)
  | ldi a b =>
    exact runHandler_sameRegsExcept h (keepsRegs_checkReg fun _ hi => keepsRegs_setReg hi b)
  | not a =>
    exact runHandler_sameRegsExcept h (keepsRegs_checkReg fun _ hi => keepsRegs_setReg hi _)
  | mod a b =>
    exact runHandler_sameRegsExcept h (keepsRegs_checkReg fun _ hi => keepsRegs_checkReg fun _ _ =>
      keepsRegs_bind fun _ _ => keepsRegs_setReg hi _)
  | prn a =>
    exact runHandler_sameRegsExcept h (keepsRegs_checkReg fun _ _ => keepsRegs_ok fun _ _ => rfl)
  | hlt =>
    rw [exec_hlt] at h
    injection h with h
    exact h ▸ fun _ _ => rfl
  | cmp a b =>
    exact runHandler_sameRegsExcept h (keepsRegs_checkReg fun _ _ => keepsRegs_checkReg fun _ _ =>
      keepsRegs_ok fun _ _ => rfl)
  | jmp a => exact runHandler_sameRegsExcept h (keepsRegs_jumpTo a s)
  | jeq a =>
    refine runHandler_sameRegsExcept h ?_
    split
    · exact keepsRegs_jumpTo a s
    · exact keepsRegs_fallThrough s
  | jne a =>
    refine runHandler_sameRegsExcept h ?_
    split
    · exact keepsRegs_fallThrough s
    · exact keepsRegs_jumpTo a s
  | push a =>
    exact runHandler_sameRegsExcept h (keepsRegs_checkReg fun _ _ => keepsRegs_bind fun _ _ _ hu =>
      sameRegsExcept_pushWrite hu)
  | call a =>
    exact runHandler_sameRegsExcept h (keepsRegs_checkReg fun _ _ => keepsRegs_bind fun _ _ =>
      keepsRegs_bind fun _ _ => keepsRegs_bind fun _ hu => keepsRegs_ok
        (sameRegsExcept_setPc (sameRegsExcept_pushWrite hu) _))
  | pop a =>
    refine runHandler_sameRegsExcept h (keepsRegs_checkReg fun i hi => keepsRegs_bind fun v _ =>
      keepsRegs_bind fun t' _ => keepsRegs_ok
        (sameRegsExcept_setReg ?_ (List.mem_cons_of_mem a List.mem_cons_self) t'))
    split
    · exact fun _ _ => rfl
    · exact sameRegsExcept_setReg (fun _ _ => rfl) (hi ▸ List.mem_cons_self) v
  | ret =>
    exact runHandler_sameRegsExcept h (keepsRegs_bind fun _ _ => keepsRegs_bind fun t' _ =>
      keepsRegs_ok (sameRegsExcept_setPc
        (sameRegsExcept_setReg (fun _ _ => rfl) List.mem_cons_self t') _))

/-! ### The frames -/

/-- The opcodes and the destination of LDI and the nine ALU instructions that write a register. -/
theorem registerWriter_opcode {a b : Byte} {i : Instr}
    (hi : i ∈ [Instr.ldi a b, .add a b, .mul a b, .and a b, .or a b, .xor a b, .not a, .shl a b,
      .shr a b, .mod a b]) :
    i.writtenRegs = [a] ∧ i.opcode ∉ [0x45#8, 0x50#8, 0xA7#8, 0x47#8, 0x01#8] := by
  revert i
  simp [Instr.writtenRegs, Instr.opcode]

/-- Settles O53: the one register by the handler's shape, the rest by the opcode. -/
theorem registerWritersFrame : Obligations.RegisterWritersFrame := by
  intro a b i s t hi h
  obtain ⟨hregs, hop⟩ := registerWriter_opcode hi
  simp only [List.mem_cons, List.not_mem_nil, or_false, not_or] at hop
  obtain ⟨hpush, hcall, hcmp, hprn, hhlt⟩ := hop
  have hf := exec_cycleFrame h
  exact ⟨hregs ▸ exec_sameRegsExcept h, hf.sameMemory hpush hcall, hf.fl_eq hcmp, hf.out_eq hprn,
    hf.sameControlOrError hhlt⟩

/-- PRN, HLT, CMP and the jumps write no register and do not push; of the opcodes that change the flags,
the output or `running` each has at most its own. -/
theorem nonWriter_opcode {a b : Byte} {i : Instr}
    (hi : i ∈ [Instr.prn a, .hlt, .cmp a b, .jmp a, .jeq a, .jne a]) :
    i.writtenRegs = [] ∧ i.opcode ≠ 0x45#8 ∧ i.opcode ≠ 0x50#8 ∧
      (i ≠ .cmp a b → i.opcode ≠ 0xA7#8) ∧ (i ≠ .prn a → i.opcode ≠ 0x47#8) ∧
      (i ≠ .hlt → i.opcode ≠ 0x01#8) := by
  revert i
  simp [Instr.writtenRegs, Instr.opcode]

/-- Settles O54: registers by the handler's shape, HLT by its meaning, the rest by the opcode. -/
theorem nonWritersFrame : Obligations.NonWritersFrame := by
  intro a b i s t hi h
  obtain ⟨hregs, hpush, hcall, hcmp, hprn, hhlt⟩ := nonWriter_opcode hi
  have hf := exec_cycleFrame h
  refine ⟨hregs ▸ exec_sameRegsExcept h, hf.sameMemory hpush hcall, fun hne => hf.fl_eq (hcmp hne),
    fun _ => hf.fl_keeps, fun _ => hf.fl_high, fun hne => hf.out_eq (hprn hne),
    fun hne => hf.sameControlOrError (hhlt hne), ?_⟩
  rintro rfl
  rw [exec_hlt] at h
  injection h with h
  subst h
  exact ⟨rfl, rfl⟩

end Sys2Proof.Machine

/-! PROOFS. The statements of 20_memory.md: the memory primitives, and a PUSH over the next
instruction. -/

namespace Sys2Proof.Machine

/-! ### The memory primitives -/

/-- A write outside memory raises MEM_ADDR (R53). -/
theorem memWrite_out (s : State) {a : Int} (h : a < 0 ∨ 255 < a) (v : Byte) :
    memWrite s a v = .error (.memAddr a) := if_pos h

/-- Settles O58: outside memory both primitives fail their range check; inside, the write is a
`Memory.write`, whose read-after-write laws give the rest. -/
theorem memoryPrimitivesCheckTheRange : Obligations.MemoryPrimitivesCheckTheRange := by
  refine ⟨fun s a v ha => ⟨memRead_out s ha, memWrite_out s ha v⟩, fun s a v hwf ha => ?_⟩
  refine ⟨memRead_ok s ha, { s with mem := s.mem.write a v }, ?_, ?_, ?_, ?_, rfl⟩
  · exact memWrite_ok s (by omega) (by omega) v
  · rw [memRead_ok _ ha, Memory.read_write_same hwf]
  · exact Memory.wf_write hwf ha v
  · exact fun b hb => Memory.read_write_ne s.mem v hb

/-! ### A PUSH over the next instruction -/

/-- The state after a completed PUSH of register `i`, which is read after the stack pointer moved
(R141, D20). -/
def State.pushed (s : State) (i : Fin 8) : State :=
  { s with
    x := s.x.set 7 (s.reg 7 - 1)
    mem := s.mem.write ((s.reg 7).toNat - 1) (if i = 7 then s.reg 7 - 1 else s.reg i)
    pc := s.pc + 2#9 }

/-- PUSH as a whole, from a stack pointer that is not 0 (R141). -/
theorem exec_push_regByte (i : Fin 8) {s : State} (h : 1 ≤ (s.reg 7).toNat) :
    exec (.push (regByte i)) s = .next (s.pushed i) := by
  rcases checkPush_cases s with ⟨h0, -⟩ | ⟨-, hcheck, haddr, hsp⟩
  · omega
  · have hlt := (s.reg 7).isLt
    have hwrite := fun v => memWrite_ok (s.setReg 7 (s.reg 7 - 1))
      (a := (((s.reg 7).toNat - 1 : Nat) : Int)) (by omega) (by omega) v
    simp only [exec, execPush, checkReg_regByte, hcheck, bind, Except.bind, hsp, State.setSp_eq]
    rw [haddr, hwrite, runHandler_ok]
    simp [Instr.opcode, setsPc, operandCount, State.advance, State.setPc, State.pushed]

/-- A PUSH that writes the cell right after itself advances to that cell. -/
theorem State.pushed_pc_toNat (i : Fin 8) {s : State} (hsp : s.pc.toNat + 3 = (s.reg 7).toNat) :
    (s.pushed i).pc.toNat = (s.reg 7).toNat - 1 := by
  have hlt := (s.reg 7).isLt
  rw [State.pushed, BitVec.toNat_add, show (2#9).toNat = 2 from rfl]
  omega

/-- A PUSH that writes the cell right after itself leaves the pushed byte as the next opcode (R63). -/
theorem State.pushed_opcodeAtPc (i : Fin 8) {s : State} (hwf : s.mem.wf = true)
    (hsp : s.pc.toNat + 3 = (s.reg 7).toNat) :
    (s.pushed i).opcodeAtPc = if i = 7 then s.reg 7 - 1 else s.reg i := by
  rw [State.opcodeAtPc, State.byteAt, State.pushed_pc_toNat i hsp]
  exact Memory.read_write_same hwf _

/-- A one-byte instruction at `pc` is fetched from its opcode byte alone (R80, R113, R114). -/
theorem fetch_oneByte {s : State} {j : Instr} (hp : s.pc.toNat < 256)
    (hcount : operandCount s.opcodeAtPc = 0) (hj : lookup s.opcodeAtPc 0 0 = some j) :
    fetch s = .ok j := by
  rw [State.opcodeAtPc, State.byteAt] at hcount hj
  rcases fetch_cases s with ⟨h256, -⟩ | ⟨-, h3, -⟩ | ⟨-, -, h256, -⟩ | ⟨-, -, e⟩
  · omega
  · omega
  · omega
  · have ha : fetchedA s 0 = 0 := rfl
    have hb : fetchedB s 0 = 0 := rfl
    rw [e, hcount, ha, hb, hj]

/-- Settles O28: the cell the PUSH writes is the one `pc` advances to, so the next fetch reads the
pushed byte, and that byte is the whole of a one-byte instruction. -/
theorem pushedByteIsFetchedNext : Obligations.PushedByteIsFetchedNext := by
  rintro i s t v ⟨hwf, -⟩ ⟨hrunning, hfault⟩ hsp rfl h
  rw [exec_push_regByte i (by omega)] at h
  injection h with h
  subst h
  have hop := State.pushed_opcodeAtPc i hwf hsp
  have hpc : (s.pushed i).pc.toNat < 256 := by
    have hlt := (s.reg 7).isLt
    rw [State.pushed_pc_toNat i hsp]
    omega
  refine ⟨hop, fun j hcount hj => step_fetched hfault hrunning (fetch_oneByte hpc ?_ ?_)⟩
  · rw [hop, hcount]
  · rw [hop, hj]

end Sys2Proof.Machine

/-! PROOFS. The statements of 30_encoding.md: decoder and encoder are inverse, the fields of an opcode,
and the bytes that are no opcode. -/

namespace Sys2Proof

/-! ### Decode and encode -/

theorem Instr.operands_length_le (i : Instr) : i.operands.length ≤ 2 := by
  cases i <;> simp [Instr.operands]

/-- Bits 7:6 of a listed opcode are never 11 (R92). -/
theorem operandCount_opcode_ne_three (i : Instr) : operandCount i.opcode ≠ 3 := by
  have hcount := operandCount_opcode i
  have hle := i.operands_length_le
  omega

/-- The operand bytes of an instruction are taken whole, and what follows them is left (R82). -/
theorem takeOperands_append {ops : List Byte} (h : ops.length ≤ 2) (rest : List Byte) :
    ∃ a b, takeOperands ops.length (ops ++ rest) = some (a, b, rest) ∧
      ops = [a, b].take ops.length := by
  match ops, h with
  | [], _ => exact ⟨0, 0, rfl, rfl⟩
  | [a], _ => exact ⟨a, 0, rfl, rfl⟩
  | [a, b], _ => exact ⟨a, b, rfl, rfl⟩

/-- The bytes that were read are the operands taken from them and the rest: none is dropped. -/
theorem takeOperands_eq_some {n : Nat} {bytes rest : List Byte} {a b : Byte}
    (h : takeOperands n bytes = some (a, b, rest)) : bytes = [a, b].take n ++ rest := by
  unfold takeOperands at h
  split at h <;> cases h <;> rfl

/-- When a byte sequence decodes: its three checks pass (R110 steps 2 to 5). -/
theorem decode_cons_eq_ok {ir : Byte} {bytes rest : List Byte} {i : Instr} :
    decode (ir :: bytes) = .ok (i, rest) ↔
      operandCount ir ≠ 3 ∧
      ∃ a b, takeOperands (operandCount ir) bytes = some (a, b, rest) ∧ lookup ir a b = some i := by
  by_cases h3 : operandCount ir = 3
  · simp [decode, h3]
  · cases ht : takeOperands (operandCount ir) bytes with
    | none => simp [decode, h3, ht]
    | some ops =>
      obtain ⟨a, b, tail⟩ := ops
      cases hl : lookup ir a b with
      | none => simp [decode, h3, ht, hl]
      | some j => simpa [decode, h3, ht, hl] using and_comm

/-- An instruction's operands are what the decoder takes after its opcode, and the table gives the
instruction back for them (R82, R83, R86). -/
theorem decode_encode_append (i : Instr) (rest : List Byte) :
    decode (encode i ++ rest) = .ok (i, rest) := by
  obtain ⟨a, b, htake, hops⟩ := takeOperands_append i.operands_length_le rest
  rw [← operandCount_opcode] at htake hops
  exact decode_cons_eq_ok.2
    ⟨operandCount_opcode_ne_three i, a, b, htake, lookup_opcode i a b hops⟩

/-- Settles O3: the round trip, for every operand byte and any tail. -/
theorem decodeOfEncodeIsTheInstruction : Obligations.DecodeOfEncodeIsTheInstruction :=
  decode_encode_append

/-- Settles O4: the opcode of the decoded instruction is the key that was looked up, and its operands are
the bytes that were taken. -/
theorem decodedBytesAreTheEncoding : Obligations.DecodedBytesAreTheEncoding := by
  intro bytes rest i h
  cases bytes with
  | nil => exact nomatch h
  | cons ir tail =>
    obtain ⟨-, a, b, htake, hlookup⟩ := decode_cons_eq_ok.1 h
    obtain ⟨hop, hops⟩ := lookup_eq_some hlookup
    rw [encode, hop, hops, List.cons_append, ← takeOperands_eq_some htake]

/-- Settles O5: each word is the encoding of its row's instruction. -/
theorem wordsOfTheTableDecode : Obligations.WordsOfTheTableDecode :=
  ⟨decode_encode_append (.ldi 3 255) [], decode_encode_append (.prn 7) [],
    decode_encode_append .hlt [], decode_encode_append (.push 2) [], decode_encode_append (.pop 2) [],
    decode_encode_append (.call 1) [], decode_encode_append .ret [], decode_encode_append (.add 0 1) [],
    decode_encode_append (.mod 6 5) [], decode_encode_append (.not 4) [],
    decode_encode_append (.cmp 0 200) [], decode_encode_append (.jeq 255) []⟩

/-! ### The fields of an opcode -/

theorem encode_injective : Function.Injective encode := by
  intro i j h
  have hi := decode_encode_append i []
  rw [h, decode_encode_append j []] at hi
  cases hi
  rfl

/-- Bit 5 of the opcode marks the ten ALU instructions (R81, R88). -/
theorem aluBit_opcode (i : Instr) : aluBit i.opcode = true ↔
    ∃ a b : Byte, i ∈ [Instr.add a b, .mul a b, .and a b, .or a b, .xor a b, .not a, .shl a b,
      .shr a b, .mod a b, .cmp a b] := by
  cases i <;> simp [aluBit, Instr.opcode]

/-- Bit 4 of the opcode marks the five instructions that set `pc` themselves (R81, R88). -/
theorem setsPc_opcode (i : Instr) : setsPc i.opcode = true ↔
    ∃ a : Byte, i ∈ [Instr.call a, .ret, .jmp a, .jeq a, .jne a] := by
  cases i <;> simp [setsPc, Instr.opcode]

/-- Settles O6: the fields constructor by constructor; opcode and operands are the whole encoding, which
decodes to one instruction only. -/
theorem opcodeFieldsFollowTheLayout : Obligations.OpcodeFieldsFollowTheLayout :=
  ⟨operandCount_opcode, aluBit_opcode, setsPc_opcode,
    fun _ _ hop hops => encode_injective (congrArg₂ List.cons hop hops)⟩

/-! ### The bytes that are no opcode -/

/-- The 20 opcodes, sorted by value (R86). -/
def opcodeKeys : List Byte :=
  [0x01#8, 0x11#8, 0x45#8, 0x46#8, 0x47#8, 0x50#8, 0x54#8, 0x55#8, 0x56#8, 0x69#8, 0x82#8, 0xA0#8,
   0xA2#8, 0xA4#8, 0xA7#8, 0xA8#8, 0xAA#8, 0xAB#8, 0xAC#8, 0xAD#8]

theorem Instr.opcode_mem_opcodeKeys (i : Instr) : i.opcode ∈ opcodeKeys := by
  cases i <;> simp [Instr.opcode, opcodeKeys]

/-- A byte that is no instruction's opcode is in no entry of the table (R91). -/
theorem lookup_none_of_opcode_ne {ir : Byte} (h : ∀ i : Instr, i.opcode ≠ ir) (a b : Byte) :
    lookup ir a b = none := by
  cases hl : lookup ir a b with
  | none => rfl
  | some i => exact absurd (lookup_eq_some hl).1 (h i)

theorem lookup_none_of_countThree {ir : Byte} (h : operandCount ir = 3) (a b : Byte) :
    lookup ir a b = none :=
  lookup_none_of_opcode_ne (fun i hi => operandCount_opcode_ne_three i (hi ▸ h)) a b

theorem lookup_none_of_not_mem_opcodeKeys {ir : Byte} (h : ir ∉ opcodeKeys) (a b : Byte) :
    lookup ir a b = none :=
  lookup_none_of_opcode_ne (ir := ir) (fun i hi => h (hi ▸ i.opcode_mem_opcodeKeys)) a b

/-- Settles O7, by evaluation at the 256 bytes. -/
theorem twentyOpcodesAreListed : Obligations.TwentyOpcodesAreListed :=
  ⟨by decide, by decide, by decide, by decide, by decide⟩

end Sys2Proof

namespace Sys2Proof.Machine

/-- The fetch of a byte that is in no entry of the table is a Decode error, unless an operand address
beyond memory is reported first (R91, R92, R207). -/
theorem fetch_unlisted {s : State} (hnone : ∀ a b, lookup s.opcodeAtPc a b = none)
    (hp : s.pc.toNat < 256)
    (hops : operandCount s.opcodeAtPc = 3 ∨ s.pc.toNat + operandCount s.opcodeAtPc ≤ 255) :
    fetch s = .error (.decodeError s.opcodeAtPc s.pc) := by
  simp only [State.opcodeAtPc, State.byteAt] at hnone hops ⊢
  rcases fetch_cases s with ⟨h256, -⟩ | ⟨-, -, e⟩ | ⟨-, hle, h256, -⟩ | ⟨-, -, e⟩
  · omega
  · exact e
  · omega
  · rw [e, hnone]

/-- A RUNNING engine takes that error. -/
theorem step_unlisted {s : State} (hrun : s.isRunning)
    (hnone : ∀ a b, lookup s.opcodeAtPc a b = none) (hp : s.pc.toNat < 256)
    (hops : operandCount s.opcodeAtPc = 3 ∨ s.pc.toNat + operandCount s.opcodeAtPc ≤ 255) :
    step s = .next (s.raise (.decodeError s.opcodeAtPc s.pc)) :=
  step_fetch_error hrun.2 hrun.1 (fetch_unlisted hnone hp hops)

/-- Settles O12: no listed opcode has count 3, and the count is checked before any operand is read. -/
theorem countThreeRaisesDecodeError : Obligations.CountThreeRaisesDecodeError :=
  ⟨fun _ a b h3 => lookup_none_of_countThree h3 a b,
    fun _ hrun hp h3 => step_unlisted hrun (lookup_none_of_countThree h3) hp (.inl h3)⟩

/-- Settles O13: every instruction's opcode is one of the 20 bytes, so no other byte is a key. -/
theorem unlistedOpcodeRaisesDecodeError : Obligations.UnlistedOpcodeRaisesDecodeError :=
  fun _ hrun hnot => step_unlisted hrun (lookup_none_of_not_mem_opcodeKeys hnot)

end Sys2Proof.Machine

/-! PROOFS. The statements of 40_cycle.md: which instruction a step runs, the addresses beyond memory, the
next state, the advance of `pc`, and the run of a loaded image. -/

namespace Sys2Proof.Machine

/-! ### The instruction a step runs -/

/-- Operand bytes that stand after `pc` are the ones the operand read takes (R82, R113). -/
theorem operands_eq_fetched {s : State} {ops : List Byte} (hlen : ops.length ≤ 2)
    (hread : ∀ k (hk : k < ops.length), s.mem.read (s.pc.toNat + (k + 1)) = ops[k]) :
    ops = [fetchedA s ops.length, fetchedB s ops.length].take ops.length := by
  match ops with
  | [] => rfl
  | [a] =>
    have ha : fetchedA s 1 = a := hread 0 (by simp)
    simp [ha]
  | [a, b] =>
    have ha : fetchedA s 2 = a := hread 0 (by simp)
    have hb : fetchedB s 2 = b := hread 1 (by simp)
    simp [ha, hb]
  | _ :: _ :: _ :: _ =>
    simp only [List.length_cons] at hlen
    omega

/-- An instruction whose bytes stand at `pc` is the one the cycle selects (R110 steps 1 to 5). -/
theorem fetch_of_holdsAtPc {s : State} {i : Instr} (h : s.holdsAtPc i) : fetch s = .ok i := by
  obtain ⟨hfit, hbytes⟩ := h
  have hop : s.mem.read s.pc.toNat = i.opcode := hbytes 0 (by simp [encode])
  have hcount := operandCount_opcode i
  have hle := i.operands_length_le
  have hops := operands_eq_fetched (s := s) hle fun k hk =>
    hbytes (k + 1) (by simpa [encode] using hk)
  simp only [encode, List.length_cons] at hfit
  rw [← hcount] at hops
  rcases fetch_cases s with ⟨h256, -⟩ | ⟨-, h3, -⟩ | ⟨-, -, h256, -⟩ | ⟨-, -, e⟩
  · omega
  · rw [hop] at h3
    omega
  · rw [hop] at h256
    omega
  · rw [e, hop, lookup_opcode i _ _ hops]

theorem codeBytes_getElem {s : State} {k : Nat} (hk : k < (codeBytes s).length) :
    (codeBytes s)[k] = s.byteAt (s.pc.toNat + k) := by
  simp [codeBytes, State.byteAt]

/-- Bytes of memory from `pc` on that decode are the instruction's encoding, which then stands at `pc`:
the converse of the encoder's side (R55, R82). -/
theorem holdsAtPc_of_decode {s : State} {i : Instr} {rest : List Byte}
    (h : decode (codeBytes s) = .ok (i, rest)) : s.holdsAtPc i := by
  have hcode : codeBytes s = encode i ++ rest := decodedBytesAreTheEncoding _ _ _ h
  have hlen : (codeBytes s).length = min 3 (256 - s.pc.toNat) := by simp [codeBytes]
  have hfit : (encode i).length ≤ (codeBytes s).length := by simp [hcode]
  have hpos : 1 ≤ (encode i).length := by simp [encode]
  refine ⟨by omega, fun k hk => ?_⟩
  rw [← codeBytes_getElem (hk.trans_le hfit)]
  simp only [hcode, List.getElem_append_left hk]

/-- Settles O9: the cycle selects the instruction that stands at `pc`. -/
theorem stepRunsTheInstructionAtPc : Obligations.StepRunsTheInstructionAtPc :=
  fun _ _ hrun hat => step_fetched hrun.2 hrun.1 (fetch_of_holdsAtPc hat)

/-- Settles O8: what decodes at `pc` stands there, so O9 applies. -/
theorem stepRunsTheDecodedInstruction : Obligations.StepRunsTheDecodedInstruction :=
  fun s i _ hrun hdec => stepRunsTheInstructionAtPc s i hrun (holdsAtPc_of_decode hdec)

/-! ### Addresses beyond memory -/

/-- The fetch of an opcode from beyond memory names that address (R111). -/
theorem fetch_opcode_out {s : State} (hp : 256 ≤ s.pc.toNat) :
    fetch s = .error (.memAddr s.pc.toNat) := by
  rcases fetch_cases s with ⟨-, e⟩ | ⟨hlt, -⟩ | ⟨hlt, -⟩ | ⟨-, hlt, -⟩
  · exact e
  all_goals omega

/-- An operand beyond memory is reported as the address 256, whatever the opcode, because the operands
are read before the table lookup (R113, R207). -/
theorem fetch_operand_out {s : State} (hp : s.pc.toNat < 256)
    (hcount : operandCount s.opcodeAtPc ≤ 2) (hout : 256 ≤ s.pc.toNat + operandCount s.opcodeAtPc) :
    fetch s = .error (.memAddr 256) := by
  simp only [State.opcodeAtPc, State.byteAt] at hcount hout
  rcases fetch_cases s with ⟨h256, -⟩ | ⟨-, h3, -⟩ | ⟨-, -, -, e⟩ | ⟨-, hlt, -⟩
  · omega
  · omega
  · exact e
  · omega

/-- Settles O10: the fetch names the address 256, and taking an error leaves `pc`. -/
theorem fetchPastMemoryRaisesMemAddr : Obligations.FetchPastMemoryRaisesMemAddr := by
  intro s hrun hpc
  have hnat : s.pc.toNat = 256 := congrArg BitVec.toNat hpc
  have hfetch := fetch_opcode_out hnat.ge
  rw [hnat] at hfetch
  exact ⟨_, step_fetch_error hrun.2 hrun.1 hfetch, rfl, State.raise_pc s _⟩

/-- Settles O11: at 255 the first operand lies beyond memory, at 254 the second. -/
theorem operandPastMemoryRaisesMemAddr : Obligations.OperandPastMemoryRaisesMemAddr := by
  intro s ⟨hrunning, hfault⟩
  refine ⟨fun hpc hcount => ?_, fun hpc hcount => ?_⟩
  · have hnat : s.pc.toNat = 255 := congrArg BitVec.toNat hpc
    exact step_fetch_error hfault hrunning
      (fetch_operand_out (by omega) (by omega) (by omega))
  · have hnat : s.pc.toNat = 254 := congrArg BitVec.toNat hpc
    exact step_fetch_error hfault hrunning
      (fetch_operand_out (by omega) (by omega) (by omega))

/-! ### The next state -/

/-- Every instruction's meaning is the cycle around one handler, with its own opcode (R110 steps 6
and 7). -/
theorem exec_eq_runHandler (i : Instr) (s : State) :
    ∃ handler, exec i s = runHandler i.opcode s handler := by
  cases i with
  | hlt => exact ⟨.ok s.stop, rfl⟩
  | _ => exact ⟨_, rfl⟩

theorem exec_next (i : Instr) (s : State) : ∃ t, exec i s = .next t := by
  obtain ⟨handler, e⟩ := exec_eq_runHandler i s
  rw [e]
  exact runHandler_next i.opcode s handler

/-- Settles O14: a RUNNING engine takes the error of its fetch, or runs what was fetched. -/
theorem runningEngineAlwaysSteps : Obligations.RunningEngineAlwaysSteps := by
  rintro s ⟨hrunning, hfault⟩
  cases hfetch : fetch s with
  | error c => exact ⟨s.raise c, step_fetch_error hfault hrunning hfetch⟩
  | ok i =>
    rw [step_fetched hfault hrunning hfetch]
    exact exec_next i s

/-- A step that recorded no cause completed the instruction it fetched. -/
theorem step_completed {s t : State} (h : step s = .next t) (ht : t.fault = none) :
    ∃ i, fetch s = .ok i ∧ Completed i s t := by
  obtain ⟨-, -, ⟨c, -, rfl⟩ | ⟨i, hi, he⟩⟩ := step_cases h
  · exact nomatch ht
  · rcases exec_ends he with ⟨c, -, rfl⟩ | hc
    · exact nomatch ht
    · exact ⟨i, hi, hc⟩

/-- Settles O19: the completed instruction's bytes lie inside memory, so the 9-bit sum does not wrap and
is at most 256. (That the fetch succeeded bounds `pc` by itself; the premise `Inv` is not used.) -/
theorem sequentialAdvanceIsExact : Obligations.SequentialAdvanceIsExact := by
  intro s t _ h ht hseq
  obtain ⟨i, hi, hc⟩ := step_completed h ht
  obtain ⟨hop, hfit⟩ := fetch_eq_ok hi
  change i.opcode = s.opcodeAtPc at hop
  rw [← hop] at hseq ⊢
  have hpc : t.pc.toNat = s.pc.toNat + operandCount i.opcode + 1 := by
    rw [hc.pcSequential hseq, BitVec.toNat_add, BitVec.toNat_ofNat]
    omega
  exact ⟨hpc, hc.pc_le hfit⟩

/-! ### The run -/

/-- Settles O22: the load starts in range (O20) and every step of the run keeps it (O21). -/
theorem loadedRunsStayInRange : Obligations.LoadedRunsStayInRange :=
  fun _ _ k hload => run_inv k (loadImage_inv hload)

end Sys2Proof.Machine

/-! PROOFS. The statements of 41_basic.md: LDI, PRN and HLT as whole instructions, and LDI followed by
PRN. -/

namespace Sys2Proof.Machine

/-! ### The register check, the advance and the run -/

/-- A handler that begins with `checkreg(a)` takes the error of an index above 7 before it does anything
else (R203, R210). -/
theorem runHandler_checkReg_high (ir : Byte) {a : Byte} (s : State)
    (f : Fin 8 → Except FaultCause State) (ha : 8 ≤ a.toNat) :
    runHandler ir s (checkReg a >>= f) = .next (s.raise (.regIndex a)) := by
  rw [checkReg_high ha]
  rfl

/-- A handler that begins with `checkreg(a)` goes on with the register that `a` names. -/
theorem checkReg_regByte_bind (i : Fin 8) (f : Fin 8 → Except FaultCause State) :
    (checkReg (regByte i) >>= f) = f i := by
  rw [checkReg_regByte]
  rfl

/-- A completed handler of an instruction whose opcode has bit 4 clear is followed by the advance past the
instruction's own bytes (R116). -/
theorem runHandler_sequential {i : Instr} (hseq : setsPc i.opcode = false) (s t : State) :
    runHandler i.opcode s (.ok t) = .next (t.advance i.operands.length) := by
  rw [runHandler_ok, hseq, operandCount_opcode]
  rfl

/-- The first cycle of a run executes the instruction that stands at `pc` (R117). -/
theorem run_holdsAtPc {s t : State} {i : Instr} (k : Nat) (hrun : s.isRunning) (hat : s.holdsAtPc i)
    (he : exec i s = .next t) : run (k + 1) s = run k t := by
  rw [run, stepRunsTheInstructionAtPc s i hrun hat, he]

/-! ### LDI, PRN and HLT -/

/-- LDI of a register as a whole (R130). -/
theorem exec_ldi_regByte (i : Fin 8) (b : Byte) (s : State) :
    exec (.ldi (regByte i) b) s = .next ((s.setReg i b).advance 2) := by
  rw [exec, execLdi, checkReg_regByte_bind]
  exact runHandler_sequential (i := .ldi (regByte i) b) (by simp [Instr.opcode, setsPc]) s _

/-- PRN of a register as a whole (R131). -/
theorem exec_prn_regByte (i : Fin 8) (s : State) :
    exec (.prn (regByte i)) s = .next ((s.emit (s.reg i)).advance 1) := by
  rw [exec, execPrn, checkReg_regByte_bind]
  exact runHandler_sequential (i := .prn (regByte i)) (by simp [Instr.opcode, setsPc]) s _

/-- Settles O29: the register check, then the register write and the advance by three bytes. -/
theorem ldiWritesItsImmediate : Obligations.LdiWritesItsImmediate :=
  ⟨fun _ _ => rfl, fun _ _ s ha => runHandler_checkReg_high _ s _ ha, exec_ldi_regByte⟩

/-- Settles O30: the register check, then the append to the output and the advance by two bytes. -/
theorem prnEmitsItsRegister : Obligations.PrnEmitsItsRegister :=
  ⟨fun _ => rfl, fun _ s ha => runHandler_checkReg_high _ s _ ha, exec_prn_regByte⟩

/-- Settles O31: HLT records no cause, so the cleared `running` makes the status HALTED, and only a state
with `running` set has a step. -/
theorem hltClearsRunning : Obligations.HltClearsRunning := by
  refine ⟨rfl, exec_hlt, fun s t ⟨_, hfault⟩ h => ?_⟩
  rw [exec_hlt] at h
  injection h with ht
  have hstopped : t.running = false := by simp [← ht]
  have hnoFault : t.fault = none := by simp [← ht, hfault]
  refine ⟨status_halted hstopped hnoFault, fun u hu => ?_⟩
  obtain ⟨-, hrunning, -⟩ := step_cases hu
  rw [hstopped] at hrunning
  exact nomatch hrunning

/-! ### LDI, then PRN of the same register -/

/-- Settles O32: LDI changes neither memory nor the control state, so the PRN that stands three bytes on
runs next, and what it emits is the register just written. -/
theorem ldiThenPrnEmitsTheImmediate : Obligations.LdiThenPrnEmitsTheImmediate := by
  intro i v s hrun hldi hprn
  have hfirst := run_holdsAtPc 1 hrun hldi (exec_ldi_regByte i v s)
  have hsecond := run_holdsAtPc (s := (s.setReg i v).advance 2) 0 hrun hprn (exec_prn_regByte i _)
  rw [hfirst, hsecond]
  exact ⟨by simp [run], status_running hrun.1 hrun.2⟩

end Sys2Proof.Machine

/-! PROOFS. The statements of 42_stack.md: PUSH and POP as whole instructions, PUSH followed by POP, and
the frames of the instructions that push or pop. -/

namespace Sys2Proof.Machine

/-! ### PUSH -/

/-- PUSH as a whole, from a stack pointer of 0 (R141). -/
theorem exec_push_regByte_zero (i : Fin 8) {s : State} (h : (s.reg 7).toNat = 0) :
    exec (.push (regByte i)) s = .next (s.raise (.memAddr (-1))) := by
  rw [exec, execPush, checkReg_regByte_bind, checkPush_zero h]
  rfl

/-- Settles O33: the register check, the check of the stack pointer, then the completed PUSH. -/
theorem pushStoresBelowTheStackPointer : Obligations.PushStoresBelowTheStackPointer :=
  ⟨fun _ => rfl, fun _ s ha => runHandler_checkReg_high _ s _ ha,
    fun i _ h => exec_push_regByte_zero i h, fun i _ h => exec_push_regByte i h⟩

/-! ### POP -/

theorem State.setReg_setReg (s : State) (i : Fin 8) (v w : Byte) :
    (s.setReg i v).setReg i w = s.setReg i w := by
  fin_cases i <;> rfl

/-- POP of register `i` after the popped byte stands in it and before the stack pointer moves. Register 7
is the stack pointer, so POP R7 moves the popped byte itself (R143, D20). -/
def State.popLoaded (s : State) (i : Fin 8) : State := s.setReg i (s.byteAt (s.reg 7).toNat)

theorem State.popLoaded_sp (s : State) : (s.popLoaded 7).reg 7 = s.byteAt (s.reg 7).toNat :=
  State.setReg_reg_same s 7 _

theorem State.popLoaded_sp_ne (s : State) {i : Fin 8} (h : i ≠ 7) : (s.popLoaded i).reg 7 = s.reg 7 :=
  State.setReg_reg_ne s h.symm _

/-- The state after a completed POP of register `i`. -/
def State.popped (s : State) (i : Fin 8) : State :=
  ((s.popLoaded i).setReg 7 ((s.popLoaded i).reg 7 + 1)).advance 1

/-- POP of a register: what is left of its handler is the check and the move of the stack pointer that
stands after the load (R143). -/
theorem exec_pop_regByte_eq (i : Fin 8) (s : State) :
    exec (.pop (regByte i)) s = runHandler (Instr.pop (regByte i)).opcode s
      (checkByteAddr (((s.popLoaded i).reg 7).toNat + 1) >>=
        fun t => .ok ((s.popLoaded i).setReg 7 t)) := by
  rw [exec, execPop, checkReg_regByte_bind, memRead_popAddr]
  by_cases hi : i = 7
  · subst hi
    simp only [State.popLoaded, State.setReg_setReg]
    rfl
  · rw [State.popLoaded_sp_ne s hi]
    simp only [bind, Except.bind, hi, if_false]
    rfl

/-- POP as a whole, where the moved stack pointer stays a byte (R143). -/
theorem exec_pop_regByte (i : Fin 8) {s : State} (h : ((s.popLoaded i).reg 7).toNat < 255) :
    exec (.pop (regByte i)) s = .next (s.popped i) := by
  rw [exec_pop_regByte_eq, checkByteAddr_succ h]
  exact runHandler_sequential (i := .pop (regByte i)) (by simp [Instr.opcode, setsPc]) s _

/-- POP as a whole, where the moved stack pointer would leave the address space (R143). -/
theorem exec_pop_regByte_out (i : Fin 8) {s : State} (h : ((s.popLoaded i).reg 7).toNat = 255) :
    exec (.pop (regByte i)) s = .next (s.raise (.memAddr 256)) := by
  rw [exec_pop_regByte_eq, checkByteAddr_succ_out h]
  rfl

/-- Settles O34: the pointer that is moved is the old stack pointer, or for R7 the popped byte. -/
theorem popReadsTheTopOfTheStack : Obligations.PopReadsTheTopOfTheStack := by
  refine ⟨fun _ => rfl, fun _ s ha => runHandler_checkReg_high _ s _ ha, fun i s hi h => ?_,
    fun s h => ?_, fun i s hi h => ?_, fun s h => ?_⟩
  · exact exec_pop_regByte_out i (by rwa [State.popLoaded_sp_ne s hi])
  · exact exec_pop_regByte_out 7 (by rwa [State.popLoaded_sp])
  · rw [exec_pop_regByte i (by rwa [State.popLoaded_sp_ne s hi]), State.popped,
      State.popLoaded_sp_ne s hi]
    rfl
  · rw [exec_pop_regByte 7 (by rwa [State.popLoaded_sp]), State.popped, State.popLoaded_sp,
      State.popLoaded, State.setReg_setReg]
    rfl

/-! ### PUSH, then POP of the same register -/

/-- A completed PUSH leaves the stack pointer at the pushed cell. -/
theorem State.pushed_sp (s : State) (i : Fin 8) : (s.pushed i).reg 7 = s.reg 7 - 1 :=
  State.setReg_reg_same s 7 _

theorem State.pushed_reg_ne (s : State) (i : Fin 8) {j : Fin 8} (h : j ≠ 7) :
    (s.pushed i).reg j = s.reg j :=
  State.setReg_reg_ne s h _

/-- A completed PUSH leaves its byte in the pushed cell. -/
theorem State.pushed_byteAt (i : Fin 8) {s : State} (hwf : s.mem.wf = true) :
    (s.pushed i).byteAt ((s.reg 7).toNat - 1) = if i = 7 then s.reg 7 - 1 else s.reg i :=
  Memory.read_write_same hwf _

theorem State.pushed_byteAt_ne (s : State) (i : Fin 8) {a : Nat} (h : a ≠ (s.reg 7).toNat - 1) :
    (s.pushed i).byteAt a = s.byteAt a :=
  Memory.read_write_ne s.mem _ h

theorem toNat_pred {v : Byte} (h : 1 ≤ v.toNat) : (v - 1).toNat = v.toNat - 1 :=
  BitVec.toNat_sub_of_le h

/-- The load of a POP after a PUSH of the same register puts back what the PUSH left there: the byte it
reads is that register as it stood after the stack pointer moved. -/
theorem State.pushed_popLoaded_reg (i j : Fin 8) {s : State} (hwf : s.mem.wf = true)
    (h : 1 ≤ (s.reg 7).toNat) : ((s.pushed i).popLoaded i).reg j = (s.pushed i).reg j := by
  rw [State.popLoaded, State.pushed_sp, toNat_pred h, State.pushed_byteAt i hwf, State.setReg_reg]
  split
  · next hj =>
    subst hj
    split
    · next h7 => rw [h7, State.pushed_sp]
    · next h7 => rw [State.pushed_reg_ne s j h7]
  · rfl

/-- Settles O35: the load changes no register, and the POP then moves the stack pointer back up. -/
theorem pushThenPopRestoresTheRegisters : Obligations.PushThenPopRestoresTheRegisters := by
  intro i s hwf h
  have hload (j : Fin 8) := State.pushed_popLoaded_reg i j hwf h
  have hlow : (((s.pushed i).popLoaded i).reg 7).toNat < 255 := by
    have hlt := (s.reg 7).isLt
    rw [hload, State.pushed_sp, toNat_pred h]
    omega
  refine ⟨s.pushed i, (s.pushed i).popped i, exec_push_regByte i h, exec_pop_regByte i hlow,
    fun j => ?_, fun a ha => State.pushed_byteAt_ne s i ha, rfl, rfl, rfl, rfl⟩
  rw [State.popped, State.advance_reg, State.setReg_reg]
  split
  · next hj => rw [hj, hload, State.pushed_sp, BitVec.sub_add_cancel]
  · next hj => rw [hload, State.pushed_reg_ne s i hj]

/-! ### The frames -/

/-- The cycle of an opcode that neither pushes, compares, emits nor halts changes only registers, `pc` and
the record of an error. -/
theorem CycleFrame.quiet {op : Byte} {s t : State} (hf : CycleFrame op s t)
    (hop : op ∉ [0x45#8, 0x50#8, 0xA7#8, 0x47#8, 0x01#8]) :
    s.sameMemory t ∧ t.fl = s.fl ∧ t.out = s.out ∧ s.sameControlOrError t := by
  simp only [List.mem_cons, List.not_mem_nil, or_false, not_or] at hop
  obtain ⟨hpush, hcall, hcmp, hprn, hhlt⟩ := hop
  exact ⟨hf.sameMemory hpush hcall, hf.fl_eq hcmp, hf.out_eq hprn, hf.sameControlOrError hhlt⟩

/-- The one cell a cycle can write is the one below the old stack top. -/
theorem CycleFrame.byteAt_eq {op : Byte} {s t : State} (hf : CycleFrame op s t) {q : Nat}
    (hq : (q : Int) ≠ pushAddr s) : t.byteAt q = s.byteAt q := by
  rcases hf.mem with e | ⟨-, hkeep⟩
  · exact congrArg (Memory.read · q) e
  · exact hkeep q hq

/-- Settles O55: registers by the handler's shape, the rest by the opcode. -/
theorem poppersFrame : Obligations.PoppersFrame := by
  refine fun a s t => ⟨fun h => ?_, fun h => ?_⟩
  · exact ⟨exec_sameRegsExcept h, CycleFrame.quiet (op := 0x46#8) (exec_cycleFrame h) (by decide)⟩
  · exact ⟨exec_sameRegsExcept h, CycleFrame.quiet (op := 0x11#8) (exec_cycleFrame h) (by decide)⟩

/-- PUSH and CALL write register 7 alone, and neither compares, emits nor halts. -/
theorem pusher_opcode {a : Byte} {i : Instr} (hi : i ∈ [Instr.push a, .call a]) :
    i.writtenRegs = [7] ∧ i.opcode ≠ 0xA7#8 ∧ i.opcode ≠ 0x47#8 ∧ i.opcode ≠ 0x01#8 := by
  revert i
  simp [Instr.writtenRegs, Instr.opcode]

/-- Settles O56: registers by the handler's shape, flags, output and control by the opcode, memory by the
one cell a cycle can write. -/
theorem pushersFrame : Obligations.PushersFrame := by
  intro a i s t hi h
  obtain ⟨hregs, hcmp, hprn, hhlt⟩ := pusher_opcode hi
  have hf := exec_cycleFrame h
  refine ⟨hregs ▸ exec_sameRegsExcept h, hf.fl_eq hcmp, hf.out_eq hprn, hf.sameControlOrError hhlt,
    fun p hp q hq => hf.byteAt_eq ?_, fun hneg q => hf.byteAt_eq ?_⟩
  · rw [hp]
    exact mod_cast hq
  · omega

/-! ### The stored byte -/

/-- CALL's return address is a byte where the CALL lies below 254 (R151). -/
theorem checkByteAddr_returnAddr {s : State} (h : s.pc.toNat < 254) :
    checkByteAddr (returnAddr s) = .ok (BitVec.ofNat 8 (s.pc.toNat + 2)) := by
  rcases checkByteAddr_cases (s.pc.toNat + 2) with ⟨-, e⟩ | ⟨hout, -⟩
  · exact e
  · omega

/-- The state after a completed CALL of register `i`, which is read after the stack pointer moved
(R151, D20). -/
def State.called (s : State) (i : Fin 8) : State :=
  { s with
    x := s.x.set 7 (s.reg 7 - 1)
    mem := s.mem.write ((s.reg 7).toNat - 1) (BitVec.ofNat 8 (s.pc.toNat + 2))
    pc := target (if i = 7 then s.reg 7 - 1 else s.reg i) }

/-- A completed CALL leaves its return address in the pushed cell. -/
theorem State.called_byteAt (i : Fin 8) {s : State} (hwf : s.mem.wf = true) :
    (s.called i).byteAt ((s.reg 7).toNat - 1) = BitVec.ofNat 8 (s.pc.toNat + 2) :=
  Memory.read_write_same hwf _

/-- A completed handler of an instruction whose opcode has bit 4 set is the whole of its cycle (R116). -/
theorem runHandler_setsPc {i : Instr} (hset : setsPc i.opcode = true) (s t : State) :
    runHandler i.opcode s (.ok t) = .next t := by
  rw [runHandler_ok, hset]
  rfl

/-- CALL as a whole, from a stack pointer that is not 0 and a `pc` below 254 (R151). -/
theorem exec_call_regByte (i : Fin 8) {s : State} (hsp : 1 ≤ (s.reg 7).toNat)
    (hpc : s.pc.toNat < 254) : exec (.call (regByte i)) s = .next (s.called i) := by
  rcases checkPush_cases s with ⟨h0, -⟩ | ⟨-, hcheck, haddr, hdec⟩
  · omega
  · have hlt := (s.reg 7).isLt
    have hwrite := memWrite_ok (s.setReg 7 (s.reg 7 - 1)) (a := pushAddr s) (by omega) (by omega)
    rw [exec, execCall, checkReg_regByte_bind, hcheck, checkByteAddr_returnAddr hpc]
    simp only [bind, Except.bind, hdec, State.setSp_eq, hwrite]
    rw [haddr]
    exact runHandler_setsPc (i := .call (regByte i)) (by simp [Instr.opcode, setsPc]) s _

/-- A push address that is a natural number is one below a stack pointer that is not 0. -/
theorem pushAddr_eq_natCast {s : State} {p : Nat} (h : pushAddr s = p) :
    1 ≤ (s.reg 7).toNat ∧ p = (s.reg 7).toNat - 1 := by
  simp only [pushAddr, State.sp_eq] at h
  omega

/-- Settles O57: the cell below the old stack top holds what the completed PUSH or CALL wrote last. -/
theorem pushersStoreTheirByte : Obligations.PushersStoreTheirByte := by
  intro i s t p hwf hp
  obtain ⟨hsp, rfl⟩ := pushAddr_eq_natCast hp
  refine ⟨fun h => ?_, fun hpc h => ?_⟩
  · rw [exec_push_regByte i hsp] at h
    injection h with h
    subst h
    exact State.pushed_byteAt i hwf
  · rw [exec_call_regByte i hsp hpc] at h
    injection h with h
    subst h
    rw [State.called_byteAt i hwf, BitVec.toNat_ofNat]
    omega

end Sys2Proof.Machine

/-! PROOFS. The statements of 43_subroutine.md: CALL and RET as whole instructions, and CALL followed by
RET. -/

namespace Sys2Proof.Machine

/-! ### CALL -/

/-- CALL as a whole, from a stack pointer of 0 (R151). -/
theorem exec_call_regByte_zero (i : Fin 8) {s : State} (h : (s.reg 7).toNat = 0) :
    exec (.call (regByte i)) s = .next (s.raise (.memAddr (-1))) := by
  rw [exec, execCall, checkReg_regByte_bind, checkPush_zero h]
  rfl

/-- CALL's return address is not a byte where the CALL lies at 254 or above (R151). -/
theorem checkByteAddr_returnAddr_out {s : State} (h : 254 ≤ s.pc.toNat) :
    checkByteAddr (returnAddr s) = .error (.memAddr 256) := by
  rcases checkByteAddr_cases (s.pc.toNat + 2) with ⟨hin, -⟩ | ⟨-, e⟩
  · omega
  · exact e

/-- CALL as a whole, where the return address would leave the address space (R151). -/
theorem exec_call_regByte_out (i : Fin 8) {s : State} (hsp : 1 ≤ (s.reg 7).toNat)
    (hpc : 254 ≤ s.pc.toNat) :
    exec (.call (regByte i)) s = .next (s.raise (.memAddr 256)) := by
  rcases checkPush_cases s with ⟨h0, -⟩ | ⟨-, hcheck, -⟩
  · omega
  · rw [exec, execCall, checkReg_regByte_bind, hcheck, checkByteAddr_returnAddr_out hpc]
    rfl

/-- Settles O36: the register check, the check of the stack pointer, the check of the return address,
then the completed CALL. -/
theorem callPushesTheReturnAddress : Obligations.CallPushesTheReturnAddress :=
  ⟨fun _ => rfl, fun _ s ha => runHandler_checkReg_high _ s _ ha,
    fun i _ h => exec_call_regByte_zero i h, fun i _ hsp hpc => exec_call_regByte_out i hsp hpc,
    fun i _ hsp hpc => exec_call_regByte i hsp hpc⟩

/-! ### RET -/

/-- The state after a completed RET (R153). -/
def State.returned (s : State) : State :=
  (s.setReg 7 (s.reg 7 + 1)).setPc (target (s.byteAt (s.reg 7).toNat))

@[simp] theorem State.returned_pc (s : State) :
    s.returned.pc = target (s.byteAt (s.reg 7).toNat) := rfl

@[simp] theorem State.returned_sp (s : State) : s.returned.reg 7 = s.reg 7 + 1 :=
  State.setReg_reg_same s 7 _

/-- RET reads the top of the stack without error, so what is left of its handler is the check and the
move of the stack pointer and the jump (R153). -/
theorem exec_ret_eq (s : State) :
    exec .ret s = runHandler Instr.ret.opcode s (checkByteAddr ((s.reg 7).toNat + 1) >>=
      fun t => .ok ((s.setReg 7 t).setPc (target (s.byteAt (s.reg 7).toNat)))) := by
  rw [exec, execRet, memRead_popAddr]
  rfl

/-- RET as a whole, where the moved stack pointer stays a byte (R153). -/
theorem exec_ret {s : State} (h : (s.reg 7).toNat < 255) : exec .ret s = .next s.returned := by
  rw [exec_ret_eq, checkByteAddr_succ h]
  exact runHandler_setsPc (i := .ret) (by decide) s _

/-- RET as a whole, where the moved stack pointer would leave the address space (R153). -/
theorem exec_ret_out {s : State} (h : (s.reg 7).toNat = 255) :
    exec .ret s = .next (s.raise (.memAddr 256)) := by
  rw [exec_ret_eq, checkByteAddr_succ_out h]
  rfl

/-- Settles O37: the check of the moved stack pointer, then the completed RET. -/
theorem retPopsTheProgramCounter : Obligations.RetPopsTheProgramCounter :=
  ⟨rfl, fun _ h => exec_ret_out h, fun _ h => exec_ret h⟩

/-! ### CALL, then RET from the same top of the stack -/

/-- A completed CALL leaves the stack pointer at the pushed cell. -/
theorem State.called_sp (s : State) (i : Fin 8) : (s.called i).reg 7 = s.reg 7 - 1 :=
  State.setReg_reg_same s 7 _

/-- A completed CALL leaves its return address at the top of the stack. -/
theorem State.called_top (i : Fin 8) {s : State} (hwf : s.mem.wf = true)
    (h : 1 ≤ (s.reg 7).toNat) :
    (s.called i).byteAt ((s.called i).reg 7).toNat = BitVec.ofNat 8 (s.pc.toNat + 2) := by
  rw [State.called_sp, toNat_pred h, State.called_byteAt i hwf]

/-- Settles O38: the stack pointer the CALL left is at most 254, so the RET completes; it pops the return
address, a byte, and moves the stack pointer back up. -/
theorem callThenRetReturns : Obligations.CallThenRetReturns := by
  intro i s hwf hsp hpc
  refine ⟨s.called i, exec_call_regByte i hsp hpc, fun u hu htop => ?_⟩
  rw [State.called_top i hwf hsp] at htop
  rw [State.called_sp] at hu
  have hlow : (u.reg 7).toNat < 255 := by
    have hlt := (s.reg 7).isLt
    rw [hu, toNat_pred hsp]
    omega
  refine ⟨u.returned, exec_ret hlow, ?_, ?_⟩
  · rw [State.returned_pc, target_toNat, htop, BitVec.toNat_ofNat]
    omega
  · rw [State.returned_sp, hu, BitVec.sub_add_cancel]

end Sys2Proof.Machine

/-! PROOFS. The statements of 44_alu.md: the ten ALU instructions as whole instructions, and the nine
two-register ones with one register as both operands. -/

namespace Sys2Proof.Machine

/-! ### The two register checks and the advance -/

/-- A handler that begins with `checkreg(a); checkreg(b)` takes the error of `b` where `a` names a register
(R174, R203). -/
theorem runHandler_checkReg_second_high (ir : Byte) {a b : Byte} (s : State)
    (g : Fin 8 → Fin 8 → Except FaultCause State) (ha : a.toNat < 8) (hb : 8 ≤ b.toNat) :
    runHandler ir s (checkReg a >>= fun i => checkReg b >>= g i) = .next (s.raise (.regIndex b)) := by
  obtain ⟨i, rfl, -⟩ := checkReg_low ha
  rw [checkReg_regByte_bind]
  exact runHandler_checkReg_high ir s (g i) hb

/-- A handler that begins with `checkreg(a); checkreg(b)` goes on with the two registers named. -/
theorem checkReg_regByte_bind_second (i j : Fin 8) (g : Fin 8 → Fin 8 → Except FaultCause State) :
    (checkReg (regByte i) >>= fun i => checkReg (regByte j) >>= g i) = g i j := by
  rw [checkReg_regByte_bind, checkReg_regByte_bind]

/-- A completed handler of a sequential instruction of three bytes is followed by the advance past them
(R116). -/
theorem runHandler_threeBytes {i : Instr} {op a b : Byte} (henc : encode i = [op, a, b])
    (hseq : setsPc op = false) (s t : State) :
    runHandler i.opcode s (.ok t) = .next (t.advance 2) := by
  obtain ⟨hop, hoperands⟩ := List.cons.inj henc
  rw [runHandler_sequential (hop ▸ hseq), hoperands]
  rfl

/-! ### The seven instructions of the two-register shape -/

/-- An instruction whose handler is `aluBinary g` follows the rule of a two-register ALU instruction, for
the function `f` on naturals that `g` computes. -/
theorem binaryAluRule_of_handler {mk : Byte → Byte → Instr} {op : Byte} {g : Byte → Byte → Byte}
    {f : Nat → Nat → Nat} (henc : ∀ a b, encode (mk a b) = [op, a, b]) (hseq : setsPc op = false)
    (hexec : ∀ a b s, exec (mk a b) s = runHandler (mk a b).opcode s (aluBinary g a b s))
    (hval : ∀ p q : Byte, g p q = BitVec.ofNat 8 (f p.toNat q.toNat)) : BinaryAluRule mk op f := by
  refine ⟨henc, fun a b s ha => ?_, fun a b s ha hb => ?_, fun i j s => ?_⟩
  · rw [hexec]
    exact runHandler_checkReg_high _ s _ ha
  · rw [hexec]
    exact runHandler_checkReg_second_high _ s _ ha hb
  · rw [hexec, aluBinary, checkReg_regByte_bind_second, ← hval]
    exact runHandler_threeBytes (henc _ _) hseq s _

/-- Narrowing to a byte is already modulo 256. -/
theorem wrap_eq (n : Nat) : wrap n = BitVec.ofNat 8 n :=
  BitVec.eq_of_toNat_eq (by rw [wrap, BitVec.toNat_ofNat, BitVec.toNat_ofNat, Nat.mod_mod])

theorem aluAnd_eq (p q : Byte) : aluAnd p q = BitVec.ofNat 8 (p.toNat &&& q.toNat) := by
  rw [← BitVec.toNat_and, BitVec.ofNat_toNat, BitVec.setWidth_eq, aluAnd]

theorem aluOr_eq (p q : Byte) : aluOr p q = BitVec.ofNat 8 (p.toNat ||| q.toNat) := by
  rw [← BitVec.toNat_or, BitVec.ofNat_toNat, BitVec.setWidth_eq, aluOr]

theorem aluXor_eq (p q : Byte) : aluXor p q = BitVec.ofNat 8 (p.toNat ^^^ q.toNat) := by
  rw [← BitVec.toNat_xor, BitVec.ofNat_toNat, BitVec.setWidth_eq, aluXor]

/-- Settles O39: the two-register shape, whose value is the narrowed sum by definition. -/
theorem addWritesTheSum : Obligations.AddWritesTheSum :=
  binaryAluRule_of_handler (g := aluAdd) (f := fun p q => (p + q) % 256) (fun _ _ => rfl) (by decide)
    (fun _ _ _ => rfl) fun _ _ => rfl

/-- Settles O40: the two-register shape, whose value is the narrowed product by definition. -/
theorem mulWritesTheProduct : Obligations.MulWritesTheProduct :=
  binaryAluRule_of_handler (g := aluMul) (f := fun p q => (p * q) % 256) (fun _ _ => rfl) (by decide)
    (fun _ _ _ => rfl) fun _ _ => rfl

/-- Settles O41: the two-register shape, with the AND of bytes that of their values. -/
theorem andWritesTheConjunction : Obligations.AndWritesTheConjunction :=
  binaryAluRule_of_handler (fun _ _ => rfl) (by decide) (fun _ _ _ => rfl) aluAnd_eq

/-- Settles O42: the two-register shape, with the OR of bytes that of their values. -/
theorem orWritesTheDisjunction : Obligations.OrWritesTheDisjunction :=
  binaryAluRule_of_handler (fun _ _ => rfl) (by decide) (fun _ _ _ => rfl) aluOr_eq

/-- Settles O43: the two-register shape, with the exclusive OR of bytes that of their values. -/
theorem xorWritesTheExclusiveOr : Obligations.XorWritesTheExclusiveOr :=
  binaryAluRule_of_handler (fun _ _ => rfl) (by decide) (fun _ _ _ => rfl) aluXor_eq

/-- A shift left by 8 or more moves every bit past bit 7 (R167). -/
theorem mul_two_pow_mod_256 (p : Nat) {q : Nat} (h : 8 ≤ q) : (p * 2 ^ q) % 256 = 0 :=
  Nat.mod_eq_zero_of_dvd ((pow_dvd_pow 2 h).mul_left p)

/-- A shift right by 8 or more moves every bit of a byte past bit 0 (R168). -/
theorem toNat_div_two_pow (p : Byte) {q : Nat} (h : 8 ≤ q) : p.toNat / 2 ^ q = 0 :=
  Nat.div_eq_of_lt (p.isLt.trans_le (Nat.pow_le_pow_right Nat.two_pos h))

/-- Settles O45: the two-register shape, and `2 ^ 8` divides the product where the amount is 8 or more. -/
theorem shlShiftsByTheWholeByte : Obligations.ShlShiftsByTheWholeByte :=
  ⟨binaryAluRule_of_handler (g := aluShl) (fun _ _ => rfl) (by decide) (fun _ _ _ => rfl) fun _ _ => rfl,
    fun p _ => mul_two_pow_mod_256 p.toNat⟩

/-- Settles O46: the two-register shape, and a byte is below `2 ^ 8`. -/
theorem shrShiftsByTheWholeByte : Obligations.ShrShiftsByTheWholeByte :=
  ⟨binaryAluRule_of_handler (g := aluShr) (fun _ _ => rfl) (by decide) (fun _ _ _ => rfl)
      fun _ _ => wrap_eq _,
    fun p _ => toNat_div_two_pow p⟩

/-! ### NOT -/

/-- 255 less a byte is the byte with every bit inverted (R166). -/
theorem ofNat_complement (v : Byte) : BitVec.ofNat 8 (255 - v.toNat) = v ^^^ 0xFF#8 := by
  have hones : (0xFF#8 : Byte) = BitVec.allOnes 8 := rfl
  refine BitVec.eq_of_toNat_eq ?_
  rw [hones, BitVec.xor_allOnes, BitVec.toNat_not, BitVec.toNat_ofNat, Nat.mod_eq_of_lt (by omega)]

/-- NOT of a register as a whole (R166). -/
theorem exec_not_regByte (i : Fin 8) (s : State) :
    exec (.not (regByte i)) s = .next ((s.setReg i (aluNot (s.reg i))).advance 1) := by
  rw [exec, execNot, checkReg_regByte_bind]
  exact runHandler_sequential (i := .not (regByte i)) (by simp [Instr.opcode, setsPc]) s _

/-- Settles O44: the register check, then the write of the complement and the advance by two bytes. -/
theorem notWritesTheComplement : Obligations.NotWritesTheComplement := by
  refine ⟨fun _ => rfl, fun _ s ha => runHandler_checkReg_high _ s _ ha, fun i s => ?_,
    ofNat_complement⟩
  rw [exec_not_regByte, aluNot, wrap_eq]
  rfl

/-! ### MOD -/

/-- MOD of two registers: what is left of its handler is the divisor check and the write (R169). -/
theorem exec_mod_regByte_eq (i j : Fin 8) (s : State) :
    exec (.mod (regByte i) (regByte j)) s = runHandler (Instr.mod (regByte i) (regByte j)).opcode s
      (checkDivisor (regByte i) (regByte j) (s.reg j) >>=
        fun _ => .ok (s.setReg i (aluMod (s.reg i) (s.reg j)))) := by
  rw [exec, execMod, checkReg_regByte_bind_second]
  rfl

theorem checkDivisor_zero (a b : Byte) {v : Byte} (h : v.toNat = 0) :
    checkDivisor a b v = .error (.divZero a b) :=
  if_pos (BitVec.eq_of_toNat_eq h)

theorem checkDivisor_pos (a b : Byte) {v : Byte} (h : 0 < v.toNat) : checkDivisor a b v = .ok () :=
  if_neg fun hv => by simp [hv] at h

/-- MOD of two registers as a whole, with a divisor of 0 (R169, R205). -/
theorem exec_mod_regByte_zero (i j : Fin 8) {s : State} (h : (s.reg j).toNat = 0) :
    exec (.mod (regByte i) (regByte j)) s = .next (s.raise (.divZero (regByte i) (regByte j))) := by
  rw [exec_mod_regByte_eq, checkDivisor_zero _ _ h]
  rfl

/-- MOD of two registers as a whole, with a divisor that is not 0 (R169). -/
theorem exec_mod_regByte (i j : Fin 8) {s : State} (h : 0 < (s.reg j).toNat) :
    exec (.mod (regByte i) (regByte j)) s =
      .next ((s.setReg i (aluMod (s.reg i) (s.reg j))).advance 2) := by
  rw [exec_mod_regByte_eq, checkDivisor_pos _ _ h]
  exact runHandler_threeBytes (i := .mod (regByte i) (regByte j)) (op := 0xA4#8) rfl (by decide) s _

/-- Settles O47: the two register checks, the divisor check, then the remainder, which is a byte. -/
theorem modWritesTheRemainder : Obligations.ModWritesTheRemainder := by
  refine ⟨fun _ _ => rfl, fun _ _ s ha => runHandler_checkReg_high _ s _ ha,
    fun _ _ s ha hb => runHandler_checkReg_second_high _ s _ ha hb,
    fun i j _ h => exec_mod_regByte_zero i j h, fun i j s h => ?_⟩
  rw [exec_mod_regByte i j h, aluMod, wrap_eq]
  rfl

/-! ### CMP -/

/-- CMP of two registers as a whole (R170). -/
theorem exec_cmp_regByte (i j : Fin 8) (s : State) :
    exec (.cmp (regByte i) (regByte j)) s =
      .next ((s.orFlags (compareMask (s.reg i) (s.reg j))).advance 2) := by
  rw [exec, execCmp, checkReg_regByte_bind_second]
  exact runHandler_threeBytes (i := .cmp (regByte i) (regByte j)) (op := 0xA7#8) rfl (by decide) s _

/-- Settles O48: the two register checks, then the mask of each of the three orders. -/
theorem cmpOrsInOneFlag : Obligations.CmpOrsInOneFlag := by
  refine ⟨fun _ _ => rfl, fun _ _ s ha => runHandler_checkReg_high _ s _ ha,
    fun _ _ s ha hb => runHandler_checkReg_second_high _ s _ ha hb, fun i j s h => ?_,
    fun i j s h => ?_, fun i j s h => ?_⟩
  · rw [exec_cmp_regByte, compareMask_equal h]
    rfl
  · rw [exec_cmp_regByte, compareMask_greater h]
    rfl
  · rw [exec_cmp_regByte, compareMask_less h]
    rfl

/-! ### One register as both operands -/

/-- With one register as both operands, a two-register ALU instruction writes the value computed from that
register's old value (R172). -/
theorem BinaryAluRule.sameRegister {mk : Byte → Byte → Instr} {op : Byte} {f : Nat → Nat → Nat}
    (h : BinaryAluRule mk op f) (i : Fin 8) (s : State) :
    ∃ t, exec (mk (regByte i) (regByte i)) s = .next t ∧
      t.reg i = BitVec.ofNat 8 (f (s.reg i).toNat (s.reg i).toNat) := by
  obtain ⟨-, -, -, hwrite⟩ := h
  exact ⟨_, hwrite i i s, State.setReg_reg_same s i _⟩

/-- MOD with one register as both operands: 0, or the error for a divisor of 0 (R172). -/
theorem exec_mod_sameRegister (i : Fin 8) (s : State) :
    ∃ t, exec (.mod (regByte i) (regByte i)) s = .next t ∧ (0 < (s.reg i).toNat → t.reg i = 0x00#8) ∧
      (s.reg i = 0x00#8 → t = s.raise (.divZero (regByte i) (regByte i))) := by
  rcases Nat.eq_zero_or_pos (s.reg i).toNat with h | h
  · exact ⟨_, exec_mod_regByte_zero i i h, fun hpos => absurd h hpos.ne', fun _ => rfl⟩
  · refine ⟨_, exec_mod_regByte i i h, fun _ => ?_, fun hzero => by simp [hzero] at h⟩
    rw [State.advance_reg, State.setReg_reg_same, aluMod, Nat.mod_self]
    rfl

/-- Settles O49: each instruction's rule with one register as both operands, and then the arithmetic of one
value with itself. -/
theorem sameRegisterTwice : Obligations.SameRegisterTwice := by
  intro i s
  obtain ⟨shlRule, -⟩ := shlShiftsByTheWholeByte
  obtain ⟨shrRule, -⟩ := shrShiftsByTheWholeByte
  obtain ⟨tAdd, eAdd, vAdd⟩ :=
    BinaryAluRule.sameRegister (f := fun p q => (p + q) % 256) addWritesTheSum i s
  obtain ⟨tMul, eMul, vMul⟩ :=
    BinaryAluRule.sameRegister (f := fun p q => (p * q) % 256) mulWritesTheProduct i s
  obtain ⟨tAnd, eAnd, vAnd⟩ := andWritesTheConjunction.sameRegister i s
  obtain ⟨tOr, eOr, vOr⟩ := orWritesTheDisjunction.sameRegister i s
  obtain ⟨tXor, eXor, vXor⟩ := xorWritesTheExclusiveOr.sameRegister i s
  obtain ⟨tShl, eShl, vShl⟩ := shlRule.sameRegister i s
  obtain ⟨tShr, eShr, vShr⟩ := shrRule.sameRegister i s
  refine ⟨⟨tAdd, eAdd, ?_⟩, ⟨tMul, eMul, ?_⟩, ⟨tAnd, eAnd, ?_⟩, ⟨tOr, eOr, ?_⟩, ⟨tXor, eXor, ?_⟩,
    ⟨tShl, eShl, ?_⟩, ⟨tShr, eShr, ?_⟩, exec_mod_sameRegister i s, ⟨_, exec_cmp_regByte i i s, ?_⟩⟩
  · rw [vAdd, BitVec.toNat_ofNat, Nat.mod_mod, two_mul]
  · rw [vMul, BitVec.toNat_ofNat, Nat.mod_mod, sq]
  · rw [vAnd, Nat.and_self, BitVec.ofNat_toNat, BitVec.setWidth_eq]
  · rw [vOr, Nat.or_self, BitVec.ofNat_toNat, BitVec.setWidth_eq]
  · rw [vXor, Nat.xor_self]
  · rw [vShl, BitVec.toNat_ofNat, Nat.mod_mod]
  · rw [vShr, Nat.div_eq_of_lt Nat.lt_two_pow_self]
    rfl
  · rw [State.advance_fl, State.orFlags_fl, compareMask_equal rfl]
    rfl

end Sys2Proof.Machine

/-! PROOFS. The statements of 45_jumps.md: JMP, and the two conditional jumps taken and not taken. -/

namespace Sys2Proof.Machine

/-! ### The cycle around the two jump handlers -/

/-- A jump through register `i` as a whole: the opcode's bit 4 leaves `pc` at the target
(R116, R190). -/
theorem runHandler_jumpTo_regByte {j : Instr} (hset : setsPc j.opcode = true) (i : Fin 8) (s : State) :
    runHandler j.opcode s (jumpTo (regByte i) s) = .next (s.setPc (target (s.reg i))) := by
  rw [jumpTo, checkReg_regByte_bind]
  exact runHandler_setsPc hset s _

/-- A jump that is not taken as a whole: the cycle adds nothing to the handler's own advance
(R116, R192). -/
theorem runHandler_fallThrough {j : Instr} (hset : setsPc j.opcode = true) (s : State) :
    runHandler j.opcode s (fallThrough s) = .next (s.setPc (s.pc + 2#9)) :=
  runHandler_setsPc hset s _

theorem setsPc_opcode_jmp (a : Byte) : setsPc (Instr.jmp a).opcode = true :=
  (setsPc_opcode _).2 ⟨a, by simp⟩

theorem setsPc_opcode_jeq (a : Byte) : setsPc (Instr.jeq a).opcode = true :=
  (setsPc_opcode _).2 ⟨a, by simp⟩

theorem setsPc_opcode_jne (a : Byte) : setsPc (Instr.jne a).opcode = true :=
  (setsPc_opcode _).2 ⟨a, by simp⟩

/-! ### JMP -/

/-- Settles O50: the register check, then the jump. -/
theorem jmpGoesToItsRegister : Obligations.JmpGoesToItsRegister :=
  ⟨fun _ => rfl, fun _ s ha => runHandler_checkReg_high _ s _ ha,
    fun i s => runHandler_jumpTo_regByte (setsPc_opcode_jmp _) i s⟩

/-! ### The two sides of the condition -/

/-- JEQ with E set has JMP's handler (R192, R194). -/
theorem exec_jeq_of_flagE (a : Byte) {s : State} (hE : s.flagE = true) :
    exec (.jeq a) s = runHandler (Instr.jeq a).opcode s (jumpTo a s) := by
  rw [exec, execJeq, if_pos hE]

/-- JEQ with E clear falls through, whatever its operand byte (R192, D15). -/
theorem exec_jeq_of_not_flagE (a : Byte) {s : State} (hE : s.flagE = false) :
    exec (.jeq a) s = .next (s.setPc (s.pc + 2#9)) := by
  rw [exec, execJeq, if_neg (ne_true_of_eq_false hE)]
  exact runHandler_fallThrough (setsPc_opcode_jeq a) s

/-- JNE with E clear has JMP's handler (R193, R194). -/
theorem exec_jne_of_not_flagE (a : Byte) {s : State} (hE : s.flagE = false) :
    exec (.jne a) s = runHandler (Instr.jne a).opcode s (jumpTo a s) := by
  rw [exec, execJne, if_neg (ne_true_of_eq_false hE)]

/-- JNE with E set falls through, whatever its operand byte (R193, D15). -/
theorem exec_jne_of_flagE (a : Byte) {s : State} (hE : s.flagE = true) :
    exec (.jne a) s = .next (s.setPc (s.pc + 2#9)) := by
  rw [exec, execJne, if_pos hE]
  exact runHandler_fallThrough (setsPc_opcode_jne a) s

/-- Settles O51: with E set the register check and the jump, with E clear the fall-through. -/
theorem jeqIsTakenExactlyWhenEqualIsSet : Obligations.JeqIsTakenExactlyWhenEqualIsSet := by
  refine ⟨fun _ => rfl, fun a s hE ha => ?_, fun i s hE => ?_,
    fun a _ hE => exec_jeq_of_not_flagE a hE⟩
  · rw [exec_jeq_of_flagE a hE]
    exact runHandler_checkReg_high _ s _ ha
  · rw [exec_jeq_of_flagE _ hE]
    exact runHandler_jumpTo_regByte (setsPc_opcode_jeq _) i s

/-- Settles O52: with E clear the register check and the jump, with E set the fall-through. -/
theorem jneIsTakenExactlyWhenEqualIsClear : Obligations.JneIsTakenExactlyWhenEqualIsClear := by
  refine ⟨fun _ => rfl, fun a s hE ha => ?_, fun i s hE => ?_,
    fun a _ hE => exec_jne_of_flagE a hE⟩
  · rw [exec_jne_of_not_flagE a hE]
    exact runHandler_checkReg_high _ s _ ha
  · rw [exec_jne_of_not_flagE _ hE]
    exact runHandler_jumpTo_regByte (setsPc_opcode_jne _) i s

end Sys2Proof.Machine

/-! PROOFS. The statements of 60_exceptions.md: an error is precise, the causes a step can record, an
outcome for every instruction, and the codes of the causes. -/

namespace Sys2Proof.Machine

/-- A step that records a cause took it in the state it started from: an error of the fetch, or a legal
cause of the fetched instruction, since a completed instruction leaves `fault` as it was. -/
theorem step_recorded {s t : State} {c : FaultCause} (h : step s = .next t) (hc : t.fault = some c) :
    t = s.raise c ∧ (fetch s = .error c ∨ c.legal = true) := by
  obtain ⟨hfault, -, ⟨c', hfetch, rfl⟩ | ⟨i, -, he⟩⟩ := step_cases h
  · cases hc
    exact ⟨rfl, .inl hfetch⟩
  · rcases exec_ends he with ⟨c', hlegal, rfl⟩ | hdone
    · cases hc
      exact ⟨rfl, .inr hlegal⟩
    · rw [hdone.fault, hfault] at hc
      exact nomatch hc

/-- Settles O17: the recorded cause was taken in the old state, and taking an error writes `running` and
`fault` alone. -/
theorem errorsArePrecise : Obligations.ErrorsArePrecise :=
  fun _ _ _ h hc => (step_recorded h hc).1

/-- Settles O18: the fetch raises only listed causes where `pc` is at most 256, an instruction from every
state. -/
theorem recordedCausesAreTheListedOnes : Obligations.RecordedCausesAreTheListedOnes := by
  rintro s t c ⟨-, hpc, -, -⟩ h hc
  obtain ⟨-, hfetch | hlegal⟩ := step_recorded h hc
  · exact fetch_error_legal hpc hfetch
  · exact hlegal

/-- Settles O15: every meaning is the cycle around one handler, which takes the handler's error or its
state. -/
theorem everyInstructionHasANextState : Obligations.EveryInstructionHasANextState := exec_next

/-- Settles O59: each code is the table's by definition, whatever the cause carries. -/
theorem causeCodesAreTheTables : Obligations.CauseCodesAreTheTables :=
  ⟨rfl, rfl, rfl, fun _ _ => ⟨rfl, rfl⟩, fun _ => ⟨rfl, rfl⟩, fun _ => ⟨rfl, rfl⟩,
    fun _ _ => ⟨rfl, rfl⟩⟩

end Sys2Proof.Machine

/-! PROOFS. The statements of 70_reset_and_hazards.md: what the load leaves in memory, and the E flag
along a run. -/

namespace Sys2Proof.Machine

/-! ### The load -/

/-- The state in which the first cycle sees the image `image` (R242). -/
def loadedState (image : List Byte) : State :=
  { State.reset with mem := placeBytes State.reset.mem 0 image }

theorem loadImage_of_fits {image : List Byte} (h : image.length ≤ 256) :
    loadImage image = some (loadedState image) :=
  if_neg (Nat.not_lt.2 h)

theorem loadImage_of_too_long {image : List Byte} (h : 256 < image.length) : loadImage image = none :=
  if_pos h

theorem loadedState_byteAt_image {image : List Byte} (h : image.length ≤ 256) {k : Nat}
    (hk : k < image.length) : (loadedState image).byteAt k = image[k] := by
  obtain ⟨hwf, -⟩ := reset_inv
  have hread := placeBytes_read hwf 0 image k hk (by omega)
  rwa [Nat.zero_add] at hread

theorem loadedState_byteAt_above {image : List Byte} {k : Nat} (hk : image.length ≤ k) :
    (loadedState image).byteAt k = Config.memReset := by
  have habove : 0 + image.length ≤ k := by rwa [Nat.zero_add]
  exact (placeBytes_read_above State.reset.mem 0 k image habove).trans (Memory.read_nil k)

/-- Settles O2: below its length the image reads back, above it the reset memory shows through, and the
load writes memory alone. -/
theorem loadedImageStandsFromAddressZero : Obligations.LoadedImageStandsFromAddressZero :=
  ⟨fun image h => ⟨loadedState image, loadImage_of_fits h, fun _ hk => loadedState_byteAt_image h hk,
    fun _ hk _ => loadedState_byteAt_above hk, rfl⟩, fun _ => loadImage_of_too_long⟩

/-! ### The E flag along a run -/

/-- A set flag bit survives every run, since no step clears one (R31). -/
theorem run_fl_keeps (n k : Nat) {s : State} (h : s.fl.getLsbD n = true) :
    (run k s).fl.getLsbD n = true :=
  run_induction (P := fun u => u.fl.getLsbD n = true)
    (fun s t hs hstep => (onlyCompareSetsFlagsAndNothingClearsThem s t hstep).1 n hs) k s h

/-- Settles O24: E is bit 0 of `fl`. -/
theorem equalFlagStaysSetForTheRun : Obligations.EqualFlagStaysSetForTheRun :=
  fun _ k => run_fl_keeps 0 k

end Sys2Proof.Machine
